-- ==== Sys2Proof/Word.lean ====
section
/-! DEFINITION. The value types of IRVE-CORE: the 32-bit Register value (R7, `W` = 32), the 16-bit CSR address
(`AW` = 16), the 64-bit retired-instruction counter (`ICW` = 64), the byte a request is carried in, and the
privilege modes (R39). -/

namespace Sys2Proof

/-- One byte of a request. -/
abbrev Byte := BitVec 8

/-- A Register value: a 32-bit pattern with an unsigned and a signed view (R7, R8). -/
abbrev Word := BitVec 32

/-- A CSR address, 16 bits wide (R7, R51). -/
abbrev CsrAddr := BitVec 16

/-- The retired-instruction count, 64 bits wide (R7, R28). -/
abbrev Count := BitVec 64

/-- The privilege modes (R39, R210). Whether `user` exists is the configuration's to say. -/
inductive PrivMode where
  | user
  | supervisor
  | machine
  deriving DecidableEq, Repr, Inhabited

end Sys2Proof
end

