-- ==== Sys2Proof/Syntax.lean ====
section
/-! DEFINITION. The operations of the block's interface, one constructor per row of the operation map (R72, opcode
table), each with the operand fields of its format (R73) in that order. `index`, `i`, `hi`, `lo` and the privilege
operands are unsigned integers with a precondition checked when the operation runs (R73, R205); `r`, `value` and
`address` are patterns of which every one is legal. -/

namespace Sys2Proof

/-- The requests a driver can make (R72). -/
inductive Instr where
  -- Bit-field Register
  | regRead (r : Word)
  | regAsSigned (r : Word)
  | regBit (r : Word) (i : Nat)
  | regBits (r : Word) (hi lo : Nat)
  | regWrite (r value : Word)
  | regWriteBits (r : Word) (hi lo : Nat) (value : Word)
  -- Register File
  | rfGet (index : Nat)
  | rfSet (index : Nat) (value : Word)
  -- CSR Bank
  | csrExplicitRead (address : CsrAddr)
  | csrRead (address : CsrAddr) (privilege : Nat)
  | csrWrite (address : CsrAddr) (privilege : Nat) (value : Word)
  | csrReset
  | csrGetPriv
  | csrSetPriv (mode : Nat)
  -- CPU State
  | cpuReset
  | cpuGetPc
  | cpuSetPc (value : Word)
  | cpuGetInstCount
  | cpuIncrementInstCount
  | cpuGetR (index : Nat)
  | cpuSetR (index : Nat) (value : Word)
  | cpuCsrExplicitRead (address : CsrAddr)
  | cpuCsrRead (address : CsrAddr) (privilege : Nat)
  | cpuCsrWrite (address : CsrAddr) (privilege : Nat) (value : Word)
  | cpuCsrReset
  | cpuGetPriv
  | cpuSetPriv (mode : Nat)
  deriving DecidableEq, Repr, Inhabited

end Sys2Proof
end

