-- ==== Sys2Proof/WellFormed.lean ====
section
/-! DEFINITION. Which operations a request frame can carry: each integer operand fits its container (R73: a container
"at least as wide as shown"; one byte here, log 5). This is not the legal range of the operand, which the operation
checks when it runs (R205). -/

namespace Sys2Proof

/-- The operand fits a one-byte container. -/
def fitsByte (n : Nat) : Bool := decide (n < 256)

/-- Every integer operand fits its container. -/
def Instr.wellFormed : Instr → Bool
  | .regRead _ => true
  | .regAsSigned _ => true
  | .regBit _ i => fitsByte i
  | .regBits _ hi lo => fitsByte hi && fitsByte lo
  | .regWrite _ _ => true
  | .regWriteBits _ hi lo _ => fitsByte hi && fitsByte lo
  | .rfGet index => fitsByte index
  | .rfSet index _ => fitsByte index
  | .csrExplicitRead _ => true
  | .csrRead _ privilege => fitsByte privilege
  | .csrWrite _ privilege _ => fitsByte privilege
  | .csrReset => true
  | .csrGetPriv => true
  | .csrSetPriv mode => fitsByte mode
  | .cpuReset => true
  | .cpuGetPc => true
  | .cpuSetPc _ => true
  | .cpuGetInstCount => true
  | .cpuIncrementInstCount => true
  | .cpuGetR index => fitsByte index
  | .cpuSetR index _ => fitsByte index
  | .cpuCsrExplicitRead _ => true
  | .cpuCsrRead _ privilege => fitsByte privilege
  | .cpuCsrWrite _ privilege _ => fitsByte privilege
  | .cpuCsrReset => true
  | .cpuGetPriv => true
  | .cpuSetPriv mode => fitsByte mode

end Sys2Proof
end

