-- ==== Sys2Proof/Decode.lean ====
section
/-! DEFINITION. Request frames. A request is the record of R71, carried as the op code byte of R72 followed by the
operand fields of the operation's format in the order of R73, each in whole bytes, least significant byte first (the
byte layout is the model's, log 5: the spec gives a request no bit layout, R70). A field a format does not list is
absent, so a frame of another length is no request (R71). -/

namespace Sys2Proof

/-- Why a frame is not one of the requests of R72. -/
inductive DecodeError where
  /-- no op code -/
  | emptyFrame
  /-- the op code selects no operation (R78) -/
  | unassignedOpcode (op : Byte)
  /-- the operand bytes are not those of the operation's format (R71) -/
  | wrongLength (op : Byte)
  deriving DecidableEq, Repr

/-- The formats of R73. -/
inductive Format where
  | f0 | fv | fi | fiv | fa | fap | fapv | fp | fr | frb | frhl | frv | frhlv
  deriving DecidableEq, Repr

/-- How many operand bytes a format has: 4 for `r` and `value`, 2 for `address`, 1 for each integer field. -/
def Format.operandBytes : Format → Nat
  | .f0 => 0
  | .fv => 4
  | .fi => 1
  | .fiv => 5
  | .fa => 2
  | .fap => 3
  | .fapv => 7
  | .fp => 1
  | .fr => 4
  | .frb => 5
  | .frhl => 6
  | .frv => 8
  | .frhlv => 10

/-- The operation map's format column, by op code (R72); `none` for an unassigned code (R78). -/
def formatOfOpcode : Nat → Option Format
  | 0x00 => some .fr
  | 0x01 => some .fr
  | 0x02 => some .frb
  | 0x03 => some .frhl
  | 0x04 => some .frv
  | 0x05 => some .frhlv
  | 0x10 => some .fi
  | 0x11 => some .fiv
  | 0x20 => some .fa
  | 0x21 => some .fap
  | 0x22 => some .fapv
  | 0x23 => some .f0
  | 0x24 => some .f0
  | 0x25 => some .fp
  | 0x30 => some .f0
  | 0x31 => some .f0
  | 0x32 => some .fv
  | 0x33 => some .f0
  | 0x34 => some .f0
  | 0x35 => some .fi
  | 0x36 => some .fiv
  | 0x38 => some .fa
  | 0x39 => some .fap
  | 0x3A => some .fapv
  | 0x3B => some .f0
  | 0x3C => some .f0
  | 0x3D => some .fp
  | _ => none

/-- A 32-bit field from its bytes, least significant first. -/
def wordOfBytes (b0 b1 b2 b3 : Byte) : Word := b3 ++ b2 ++ b1 ++ b0

/-- A 16-bit field from its bytes, least significant first. -/
def addrOfBytes (b0 b1 : Byte) : CsrAddr := b1 ++ b0

/-- The bytes of a 32-bit field, least significant first. -/
def bytesOfWord (w : Word) : List Byte :=
  [w.extractLsb' 0 8, w.extractLsb' 8 8, w.extractLsb' 16 8, w.extractLsb' 24 8]

/-- The bytes of a 16-bit field, least significant first. -/
def bytesOfAddr (a : CsrAddr) : List Byte := [a.extractLsb' 0 8, a.extractLsb' 8 8]

/-- The container of an integer field. -/
def byteOfNat (n : Nat) : Byte := BitVec.ofNat 8 n

-- The operand fields of each format with fields (R73); `none` where the bytes are not exactly those of the format.

def readF0 (i : Instr) : List Byte → Option Instr
  | [] => some i
  | _ => none

def readFV (k : Word → Instr) : List Byte → Option Instr
  | [v0, v1, v2, v3] => some (k (wordOfBytes v0 v1 v2 v3))
  | _ => none

def readFI (k : Nat → Instr) : List Byte → Option Instr
  | [n] => some (k n.toNat)
  | _ => none

def readFIV (k : Nat → Word → Instr) : List Byte → Option Instr
  | [n, v0, v1, v2, v3] => some (k n.toNat (wordOfBytes v0 v1 v2 v3))
  | _ => none

def readFA (k : CsrAddr → Instr) : List Byte → Option Instr
  | [a0, a1] => some (k (addrOfBytes a0 a1))
  | _ => none

def readFAP (k : CsrAddr → Nat → Instr) : List Byte → Option Instr
  | [a0, a1, p] => some (k (addrOfBytes a0 a1) p.toNat)
  | _ => none

def readFAPV (k : CsrAddr → Nat → Word → Instr) : List Byte → Option Instr
  | [a0, a1, p, v0, v1, v2, v3] => some (k (addrOfBytes a0 a1) p.toNat (wordOfBytes v0 v1 v2 v3))
  | _ => none

def readFP (k : Nat → Instr) : List Byte → Option Instr
  | [m] => some (k m.toNat)
  | _ => none

def readFR (k : Word → Instr) : List Byte → Option Instr
  | [r0, r1, r2, r3] => some (k (wordOfBytes r0 r1 r2 r3))
  | _ => none

def readFRB (k : Word → Nat → Instr) : List Byte → Option Instr
  | [r0, r1, r2, r3, i] => some (k (wordOfBytes r0 r1 r2 r3) i.toNat)
  | _ => none

def readFRHL (k : Word → Nat → Nat → Instr) : List Byte → Option Instr
  | [r0, r1, r2, r3, hi, lo] => some (k (wordOfBytes r0 r1 r2 r3) hi.toNat lo.toNat)
  | _ => none

def readFRV (k : Word → Word → Instr) : List Byte → Option Instr
  | [r0, r1, r2, r3, v0, v1, v2, v3] => some (k (wordOfBytes r0 r1 r2 r3) (wordOfBytes v0 v1 v2 v3))
  | _ => none

def readFRHLV (k : Word → Nat → Nat → Word → Instr) : List Byte → Option Instr
  | [r0, r1, r2, r3, hi, lo, v0, v1, v2, v3] =>
    some (k (wordOfBytes r0 r1 r2 r3) hi.toNat lo.toNat (wordOfBytes v0 v1 v2 v3))
  | _ => none

/-- The operation map (R72): the operand reader each op code selects. -/
def operandReader : Nat → Option (List Byte → Option Instr)
  | 0x00 => some (readFR .regRead)
  | 0x01 => some (readFR .regAsSigned)
  | 0x02 => some (readFRB .regBit)
  | 0x03 => some (readFRHL .regBits)
  | 0x04 => some (readFRV .regWrite)
  | 0x05 => some (readFRHLV .regWriteBits)
  | 0x10 => some (readFI .rfGet)
  | 0x11 => some (readFIV .rfSet)
  | 0x20 => some (readFA .csrExplicitRead)
  | 0x21 => some (readFAP .csrRead)
  | 0x22 => some (readFAPV .csrWrite)
  | 0x23 => some (readF0 .csrReset)
  | 0x24 => some (readF0 .csrGetPriv)
  | 0x25 => some (readFP .csrSetPriv)
  | 0x30 => some (readF0 .cpuReset)
  | 0x31 => some (readF0 .cpuGetPc)
  | 0x32 => some (readFV .cpuSetPc)
  | 0x33 => some (readF0 .cpuGetInstCount)
  | 0x34 => some (readF0 .cpuIncrementInstCount)
  | 0x35 => some (readFI .cpuGetR)
  | 0x36 => some (readFIV .cpuSetR)
  | 0x38 => some (readFA .cpuCsrExplicitRead)
  | 0x39 => some (readFAP .cpuCsrRead)
  | 0x3A => some (readFAPV .cpuCsrWrite)
  | 0x3B => some (readF0 .cpuCsrReset)
  | 0x3C => some (readF0 .cpuGetPriv)
  | 0x3D => some (readFP .cpuSetPriv)
  | _ => none

/-- The request a frame carries, or why it carries none. Total on any bytes. -/
def decode : List Byte → Except DecodeError Instr
  | [] => .error .emptyFrame
  | op :: operands =>
    match operandReader op.toNat with
    | none => .error (.unassignedOpcode op)
    | some read =>
      match read operands with
      | none => .error (.wrongLength op)
      | some i => .ok i

/-- The frame of a request: its op code (R72) and its operand fields (R73). -/
def encode : Instr → List Byte
  | .regRead r => 0x00#8 :: bytesOfWord r
  | .regAsSigned r => 0x01#8 :: bytesOfWord r
  | .regBit r i => 0x02#8 :: (bytesOfWord r ++ [byteOfNat i])
  | .regBits r hi lo => 0x03#8 :: (bytesOfWord r ++ [byteOfNat hi, byteOfNat lo])
  | .regWrite r value => 0x04#8 :: (bytesOfWord r ++ bytesOfWord value)
  | .regWriteBits r hi lo value =>
    0x05#8 :: (bytesOfWord r ++ [byteOfNat hi, byteOfNat lo] ++ bytesOfWord value)
  | .rfGet index => [0x10#8, byteOfNat index]
  | .rfSet index value => 0x11#8 :: byteOfNat index :: bytesOfWord value
  | .csrExplicitRead address => 0x20#8 :: bytesOfAddr address
  | .csrRead address privilege => 0x21#8 :: (bytesOfAddr address ++ [byteOfNat privilege])
  | .csrWrite address privilege value =>
    0x22#8 :: (bytesOfAddr address ++ [byteOfNat privilege] ++ bytesOfWord value)
  | .csrReset => [0x23#8]
  | .csrGetPriv => [0x24#8]
  | .csrSetPriv mode => [0x25#8, byteOfNat mode]
  | .cpuReset => [0x30#8]
  | .cpuGetPc => [0x31#8]
  | .cpuSetPc value => 0x32#8 :: bytesOfWord value
  | .cpuGetInstCount => [0x33#8]
  | .cpuIncrementInstCount => [0x34#8]
  | .cpuGetR index => [0x35#8, byteOfNat index]
  | .cpuSetR index value => 0x36#8 :: byteOfNat index :: bytesOfWord value
  | .cpuCsrExplicitRead address => 0x38#8 :: bytesOfAddr address
  | .cpuCsrRead address privilege => 0x39#8 :: (bytesOfAddr address ++ [byteOfNat privilege])
  | .cpuCsrWrite address privilege value =>
    0x3A#8 :: (bytesOfAddr address ++ [byteOfNat privilege] ++ bytesOfWord value)
  | .cpuCsrReset => [0x3B#8]
  | .cpuGetPriv => [0x3C#8]
  | .cpuSetPriv mode => [0x3D#8, byteOfNat mode]

/-- The first `n` bytes of `w`, bits 7..0 first. -/
def bytesOfNat : Nat → Nat → List Byte
  | 0, _ => []
  | n + 1, w => BitVec.ofNat 8 w :: bytesOfNat n (w / 256)

/-- The frame whose bits are `w` as the opcode table numbers them (bit 0 the least significant bit of the op code),
the bits above `nbits` zero, as long as the op code's format and at least `nbits` bits long. -/
def frameOfTableWord (nbits w : Nat) : List Byte :=
  let bits := w % 2 ^ nbits
  let operandBytes := match formatOfOpcode (bits % 256) with
    | some f => f.operandBytes
    | none => 0
  bytesOfNat (max (1 + operandBytes) ((nbits + 7) / 8)) bits

/-- The request the decoder reads from a word of the opcode table. -/
def decodeTableWord (nbits w : Nat) : Option Instr :=
  match decode (frameOfTableWord nbits w) with
  | .ok i => some i
  | .error _ => none

end Sys2Proof
end

