-- ==== Sys2Proof/Config.lean ====
section
/-! DEFINITION. The configuration of IRVE-CORE: the OPEN parameters of R7 (`HAS_USER`, `CSRMAP`, `XRESET`), the
check of R38 that makes a `CSRMAP` a configuration of this hardware, and the configuration the machine is reset with,
an opaque constant of which nothing but that check is known. -/

namespace Sys2Proof

/-- What a gated read does to the CSR it read (R38 (d), R141). The general case is an uninterpreted function, so that
the field stays plain data; `clearBits` is the instance the spec names ("auto-clearing status bits"). -/
inductive ReadEffect where
  /-- no effect: the default, and the effect of every CSR the spec names -/
  | identity
  /-- the bits of `m` read as they are and are then cleared -/
  | clearBits (m : Word)
  /-- the implementation's function number `k`, of which nothing is known -/
  | other (k : Nat)
  deriving DecidableEq, Repr, Inhabited

/-- The functions an implementation may use as read effects: free, R38 (d) lets each be any function. -/
opaque Config.readEffect : Nat → Word → Word

/-- `on_read` as a function from the CSR's value to its new value. -/
def ReadEffect.apply : ReadEffect → Word → Word
  | .identity, v => v
  | .clearBits m, v => v &&& ~~~m
  | .other k, v => Config.readEffect k v

/-- One record of `CSRMAP` (R30). -/
structure CsrRecord where
  resetValue   : Word
  writeMask    : Word
  minPrivilege : PrivMode
  onRead       : ReadEffect
  deriving DecidableEq, Repr, Inhabited

/-- The parameters of R7. `csrMap` is the finite partial map `CSRMAP`, its addresses strictly rising; the six address
fields bind the symbolic names of R31; `xreset` holds `XRESET(1)` to `XRESET(31)` in order. -/
structure Config where
  hasUser     : Bool
  mstatus     : CsrAddr
  misa        : CsrAddr
  mstatush    : CsrAddr
  mcause      : CsrAddr
  pmpcfgStart : CsrAddr
  pmpcfgEnd   : CsrAddr
  csrMap      : List (CsrAddr × CsrRecord)
  xreset      : Vector Word 31
  deriving DecidableEq, Repr, Inhabited

/-- `CSRMAP(a)`: the record of a defined address, `none` for an undefined one (R30, R144). -/
def Config.csr? (c : Config) (a : CsrAddr) : Option CsrRecord := c.csrMap.lookup a

/-- `mstatus` bits 3 (MIE) and 17 (MPRV), zero at reset (R32). -/
def mstatusZeroAtReset : Word := 0x00020008#32

/-- `mstatush` bit 5 (MBE), zero at reset (R35). -/
def mstatushZeroAtReset : Word := 0x00000020#32

/-- `pmpcfg` bits [4:3] (A) and 7 (L), zero at reset (R36). -/
def pmpcfgZeroAtReset : Word := 0x00000098#32

/-- What R32 to R36 ask of the record of a named CSR: Machine level, no read effect, and the bits of `zero` clear in
the reset value. -/
abbrev CsrRecord.Named (zero : Word) (e : CsrRecord) : Prop :=
  e.minPrivilege = .machine ∧ e.onRead = .identity ∧ e.resetValue &&& zero = 0#32

/-- R149: the read effect keeps the bits outside the write mask. -/
abbrev CsrRecord.KeepsReadOnlyBits (e : CsrRecord) : Prop :=
  ∀ v : Word, e.onRead.apply v &&& ~~~e.writeMask = v &&& ~~~e.writeMask

/-- Address `a` is defined and its record meets what R32 to R36 ask of a named CSR. -/
abbrev Config.NamesCsr (c : Config) (a : CsrAddr) (zero : Word) : Prop :=
  (c.csr? a).isSome = true ∧ ∀ e ∈ c.csrMap, e.1 = a → e.2.Named zero

/-- The well-formedness of `CSRMAP` (R38), with R31 to R36 and the requirement R149 makes of a read effect. -/
abbrev Config.WellFormed (c : Config) : Prop :=
  c.csrMap.Pairwise (fun x y => x.1 < y.1)
  ∧ (∀ e ∈ c.csrMap, e.2.minPrivilege = .user → c.hasUser = true)
  ∧ (∀ e ∈ c.csrMap, e.2.KeepsReadOnlyBits)
  ∧ c.NamesCsr c.mstatus mstatusZeroAtReset
  ∧ c.NamesCsr c.misa (BitVec.allOnes 32)
  ∧ c.NamesCsr c.mstatush mstatushZeroAtReset
  ∧ c.NamesCsr c.mcause (BitVec.allOnes 32)
  ∧ c.pmpcfgStart ≤ c.pmpcfgEnd
  ∧ ∀ a : CsrAddr, c.pmpcfgStart ≤ a → a ≤ c.pmpcfgEnd → c.NamesCsr a pmpcfgZeroAtReset

/-- A record that meets the check, used only by `Config.fallback`. -/
def CsrRecord.plain : CsrRecord :=
  { resetValue := 0#32, writeMask := BitVec.allOnes 32, minPrivilege := .machine, onRead := .identity }

/-- The default binding of R31 with plain records: the witness that some configuration passes the check. No claim can
rest on its values, since nothing tells whether `Config.chosen` is it. -/
def Config.fallback : Config :=
  { hasUser := true
    mstatus := 0x300#16
    misa := 0x301#16
    mstatush := 0x310#16
    mcause := 0x342#16
    pmpcfgStart := 0x3A0#16
    pmpcfgEnd := 0x3AF#16
    csrMap := [(0x300#16, .plain), (0x301#16, .plain), (0x310#16, .plain), (0x342#16, .plain)]
      ++ (List.range 16).map (fun k => (BitVec.ofNat 16 (0x3A0 + k), .plain))
    xreset := Vector.replicate 31 0#32 }

/-- What the implementation gives for the OPEN parameters: free, nothing is known of it. -/
opaque Config.raw : Config

/-- The configuration of the machine. R38: one that fails the check is not a configuration of this hardware, so it is
the implementation's where that passes. A claim about it holds for every configuration that passes. -/
def Config.chosen : Config :=
  if Config.raw.WellFormed then Config.raw else Config.fallback

end Sys2Proof
end

