-- ==== Sys2Proof/Machine/State.lean ====
section
/-! DEFINITION. The state of the block (10_state.md), the responses it gives (R71, R76, R77), the reasons a step can
stop, and the state right after reset (R43). -/

namespace Sys2Proof.Machine

/-- Why an operation aborted: which precondition of R205 was violated. -/
inductive ProgrammerError where
  /-- `index` is 32 or more -/
  | registerIndexOutOfRange
  /-- a bit position is 32 or more -/
  | bitPositionOutOfRange
  /-- `hi < lo` -/
  | emptyBitRange
  /-- the value of `REG.write_bits` does not fit the field -/
  | valueDoesNotFit
  /-- the privilege operand is not a mode -/
  | badPrivilegeOperand
  /-- the op code is none of R72's -/
  | unassignedOpcode
  /-- the block has aborted and the operation is not `CPU.reset` -/
  | blockAborted
  deriving DecidableEq, Repr

/-- The value of an `Ok` response (R72's result column, R77). -/
inductive Value where
  /-- 32 bits, unsigned view -/
  | word (v : Word)
  /-- the same 32 bits read as signed (R101) -/
  | signedWord (v : Word)
  /-- one bit (R102) -/
  | bit (b : Bool)
  /-- a field of `width` bits, right-justified and zero-filled (R77, R103) -/
  | field (width : Nat) (v : Word)
  /-- the retired-instruction count (R173) -/
  | count (n : Count)
  /-- a privilege mode (R146) -/
  | mode (m : PrivMode)
  deriving DecidableEq, Repr

/-- What an operation answers (R9, R71): one of the three outcomes. A condition carries what R201 and R202 say it
carries, an abort its reason. -/
inductive Response where
  | ok (value : Option Value)
  | undefinedCsr (address : CsrAddr)
  | privilegeViolation (address : CsrAddr) (current : PrivMode)
  | abort (reason : ProgrammerError)
  deriving DecidableEq, Repr

/-- The state. `xs` to `aborted` are the elements of 10_state.md section 1. `config` is the configuration, fixed for
the life of the instance (R41; log 1). `requests` is what the driver has issued and the block has not yet taken, oldest
first (R71; log 6), and `responses` what the block has answered, newest first (R244; log 7). -/
structure State where
  config    : Config
  /-- slots 1 to 31 in order (R20); slot 0 has no storage (R21) -/
  xs        : Vector Word 31
  /-- the program counter (R25) -/
  pc        : Word
  /-- the retired-instruction counter (R28) -/
  icount    : Count
  /-- one Register per defined address (R30) -/
  csr       : List (CsrAddr × Word)
  /-- the current privilege mode (R39) -/
  priv      : PrivMode
  /-- the fail-fast bit (R40) -/
  aborted   : Bool
  requests  : List (List Byte)
  responses : List Response
  deriving DecidableEq, Repr

/-- Why a step stops. No operation of R72 raises one: a programmer error is the answer `Response.abort` and a next
state (R204; log 8). -/
inductive Fault where
  /-- the frame presented as a request is not a record of its op code's format, or is empty (R71; log 9). Raised when
  the next request is taken. Safe: the hardware has no such request. -/
  | malformedRequest (frame : List Byte)
  deriving DecidableEq, Repr

/-- Why a step is refused. -/
inductive Refusal where
  /-- the operation has no meaning yet; raised by an arm of `exec`. Safe: the model stops. -/
  | notModelled (mnemonic : String)
  deriving DecidableEq, Repr

/-- The state right after `CPU.reset` under configuration `c` (R43), with nothing issued and nothing answered. -/
def State.afterReset (c : Config) : State :=
  { config    := c
    xs        := c.xreset
    pc        := 0#32
    icount    := 0#64
    csr       := c.csrMap.map fun e => (e.1, e.2.resetValue)
    priv      := .machine
    aborted   := false
    requests  := []
    responses := [] }

/-- The machine right after reset. -/
def State.reset : State := State.afterReset Config.chosen

end Sys2Proof.Machine
end

