-- ==== Sys2Proof/Machine/Operands.lean ====
section
/-! DEFINITION. The operand forms: the privilege operand's codes (R75), the rank of a mode (R210), the bit field an
inclusive range names (R82). -/

namespace Sys2Proof.Machine

/-- The code of a mode (R75). -/
def modeCode : PrivMode → Nat
  | .user => 0
  | .supervisor => 1
  | .machine => 3

/-- A mode exists in a configuration: User only if `HAS_USER` (R38 (b), R75). -/
def modeExists (c : Config) : PrivMode → Bool
  | .user => c.hasUser
  | .supervisor => true
  | .machine => true

/-- The mode a privilege operand names; `none` for a code that is not a mode (R75). -/
def modeOfCode (c : Config) : Nat → Option PrivMode
  | 0 => if c.hasUser then some .user else none
  | 1 => some .supervisor
  | 3 => some .machine
  | _ => none

/-- `rank(m)` (R210). -/
def rank : PrivMode → Nat
  | .user => 0
  | .supervisor => 1
  | .machine => 2

/-- `hi-lo+1`, the width of the field `[hi:lo]` (R82). -/
def fieldWidth (hi lo : Nat) : Nat := hi - lo + 1

/-- `mask(hi, lo)` (R8, R82). -/
def fieldMask (hi lo : Nat) : Word := BitVec.ofNat 32 ((2 ^ fieldWidth hi lo - 1) <<< lo)

/-- `r[hi:lo]`, right-justified and zero-filled (R8, R77, R103). -/
def fieldOf (r : Word) (hi lo : Nat) : Word := BitVec.ofNat 32 ((r.toNat >>> lo) % 2 ^ fieldWidth hi lo)

/-- `r` with `[hi:lo]` replaced by `value` (R105). -/
def withField (r : Word) (hi lo : Nat) (value : Word) : Word :=
  (r &&& ~~~fieldMask hi lo) ||| ((value <<< lo) &&& fieldMask hi lo)

/-- The precondition of a bit range that `[hi:lo]` violates, in the order of R103's and R105's checks. -/
def rangeError (hi lo : Nat) : Option ProgrammerError :=
  if 31 < hi ∨ 31 < lo then some .bitPositionOutOfRange
  else if hi < lo then some .emptyBitRange
  else none

end Sys2Proof.Machine
end

