-- ==== Sys2Proof/Machine/Flags.lean ====
section
/-! DEFINITION. The block has no flags and no condition codes (R41). What an operation reports instead is the status of
its response (R76) and the views of the value it returns (R77). -/

namespace Sys2Proof.Machine

/-- The status code of a response (R76). -/
def Response.status : Response → BitVec 2
  | .ok _ => 0b00#2
  | .undefinedCsr _ => 0b01#2
  | .privilegeViolation _ _ => 0b10#2
  | .abort _ => 0b11#2

/-- The value of a response: present only with status `Ok` (R71). -/
def Response.value? : Response → Option Value
  | .ok v => v
  | _ => none

/-- The response is one of the two recoverable conditions (R201, R202). -/
def Response.isCondition : Response → Bool
  | .undefinedCsr _ => true
  | .privilegeViolation _ _ => true
  | _ => false

/-- The width of a value in bits (R72's result column). -/
def Value.width : Value → Nat
  | .word _ => 32
  | .signedWord _ => 32
  | .bit _ => 1
  | .field width _ => width
  | .count _ => 64
  | .mode _ => 2

/-- The bits of a value as an unsigned integer, right-justified and zero-filled (R77). -/
def Value.bits : Value → Nat
  | .word v => v.toNat
  | .signedWord v => v.toNat
  | .bit b => if b then 1 else 0
  | .field _ v => v.toNat
  | .count n => n.toNat
  | .mode m => modeCode m

/-- The integer a value is read as: the signed view for `REG.as_signed`, the unsigned view otherwise (R8, R101). -/
def Value.number : Value → Int
  | .signedWord v => v.toInt
  | v => (v.bits : Int)

end Sys2Proof.Machine
end

