-- ==== Sys2Proof/Machine/Ops.lean ====
section
/-! DEFINITION. The shared operations over the state: answering a request (R9), taking an abort (R204) and leaving it
(R170), the register-file slots (R20, R21), the CSR cells (R30), the gate of the CSR operations (R148), and taking the
next request (R71). The block takes no RISC-V exception (R208): the abort is what it does instead. -/

namespace Sys2Proof.Machine

/-- The operation ends with response `r` (R9). -/
def State.answer (s : State) (r : Response) : State := { s with responses := r :: s.responses }

/-- The operation returns value `v`. -/
def State.returns (s : State) (v : Value) : State := s.answer (.ok (some v))

/-- The operation returns no value. -/
def State.done (s : State) : State := s.answer (.ok none)

/-- Taking an abort: nothing changes but `aborted <- 1`, and the answer is `Abort` (R204). -/
def State.abort (s : State) (e : ProgrammerError) : State := { s.answer (.abort e) with aborted := true }

/-- Every defined CSR at its reset value (R143). -/
def resetCsrs (c : Config) : List (CsrAddr × Word) := c.csrMap.map fun e => (e.1, e.2.resetValue)

/-- Leaving an abort, and every other reset: the elements of R43 in the same instance (R170). What the driver has
issued and been answered is not the block's to reset. -/
def State.resetBlock (s : State) : State :=
  { s with
    pc := 0#32, icount := 0#64, xs := s.config.xreset, csr := resetCsrs s.config, priv := .machine, aborted := false }

/-- Every operation but `CPU.reset` answers `Abort` and changes nothing while the block has aborted (R204, R207 (1)). -/
def State.whileRunning (s : State) (t : State) : State :=
  if s.aborted then s.abort .blockAborted else t

/-- The read of slot `i` (R120): slot 0 reads zero (R21). -/
def State.slot (s : State) (i : Fin 32) : Word :=
  if h : i = 0 then 0#32 else s.xs[i.val - 1]

/-- The write of slot `i` (R121): a write to slot 0 is discarded (R21). -/
def State.setSlot (s : State) (i : Fin 32) (v : Word) : State :=
  if h : i = 0 then s else { s with xs := s.xs.set (i.val - 1) v }

/-- The bank with the cell at `a` holding `v`. -/
def bankSet : List (CsrAddr × Word) → CsrAddr → Word → List (CsrAddr × Word)
  | [], a, v => [(a, v)]
  | (b, w) :: rest, a, v => if b = a then (a, v) :: rest else (b, w) :: bankSet rest a v

/-- The cell at `a` of a CSR with record `e`. In every state a run reaches the bank has the cell; one without it reads
as the reset value (log 14). -/
def State.cell (s : State) (a : CsrAddr) (e : CsrRecord) : Word := (s.csr.lookup a).getD e.resetValue

/-- `csr[a]`, for a defined address only (R8, R144). -/
def State.csr? (s : State) (a : CsrAddr) : Option Word := (s.config.csr? a).map fun e => s.cell a e

/-- `csr[a] <- v`. -/
def State.setCsr (s : State) (a : CsrAddr) (v : Word) : State := { s with csr := bankSet s.csr a v }

/-- The side effect of a gated read on `csr[a]` (R141): state is written only where `on_read` is not the identity. -/
def State.applyReadEffect (s : State) (a : CsrAddr) (e : CsrRecord) : State :=
  match e.onRead with
  | .identity => s
  | effect => s.setCsr a (effect.apply (s.cell a e))

/-- The masked write of R142. -/
def maskedWrite (old mask value : Word) : Word := (old &&& ~~~mask) ||| (value &&& mask)

/-- The operation ends with an abort unless the privilege operand is a mode (R148). -/
def State.withMode (s : State) (privilege : Nat) (k : PrivMode → State) : State :=
  match modeOfCode s.config privilege with
  | none => s.abort .badPrivilegeOperand
  | some m => k m

/-- The operation ends with `UndefinedCsr` unless the address is defined (R144). -/
def State.withCsr (s : State) (a : CsrAddr) (k : CsrRecord → State) : State :=
  match s.config.csr? a with
  | none => s.answer (.undefinedCsr a)
  | some e => k e

/-- The gate of the CSR operations, its checks in the order of R148. It reads the operand, never `priv` (R145). -/
def State.gated (s : State) (a : CsrAddr) (privilege : Nat) (access : CsrRecord → State) : State :=
  s.withMode privilege fun m =>
    s.withCsr a fun e =>
      if rank m < rank e.minPrivilege then s.answer (.privilegeViolation a m) else access e

-- The operations of 40_bitfield_register.md to 42_csr_bank.md, each said once; a meaning runs one of them unless the
-- block has aborted.

/-- R102. -/
def opBit (s : State) (r : Word) (i : Nat) : State :=
  if 31 < i then s.abort .bitPositionOutOfRange else s.returns (.bit (r.getLsbD i))

/-- R103. -/
def opBits (s : State) (r : Word) (hi lo : Nat) : State :=
  match rangeError hi lo with
  | some e => s.abort e
  | none => s.returns (.field (fieldWidth hi lo) (fieldOf r hi lo))

/-- R105, with the oversize value rejected. -/
def opWriteBits (s : State) (r : Word) (hi lo : Nat) (value : Word) : State :=
  match rangeError hi lo with
  | some e => s.abort e
  | none =>
    if 2 ^ fieldWidth hi lo ≤ value.toNat then s.abort .valueDoesNotFit
    else s.returns (.word (withField r hi lo value))

/-- R120. -/
def opGet (s : State) (index : Nat) : State :=
  if h : index < 32 then s.returns (.word (s.slot ⟨index, h⟩)) else s.abort .registerIndexOutOfRange

/-- R121. -/
def opSet (s : State) (index : Nat) (value : Word) : State :=
  if h : index < 32 then (s.setSlot ⟨index, h⟩ value).done else s.abort .registerIndexOutOfRange

/-- R140. -/
def opExplicitRead (s : State) (a : CsrAddr) : State :=
  s.withCsr a fun e => s.returns (.word (s.cell a e))

/-- R141: the value returned is the one before the side effect. -/
def opCsrRead (s : State) (a : CsrAddr) (privilege : Nat) : State :=
  s.gated a privilege fun e => (s.applyReadEffect a e).returns (.word (s.cell a e))

/-- R142. -/
def opCsrWrite (s : State) (a : CsrAddr) (privilege : Nat) (value : Word) : State :=
  s.gated a privilege fun e => (s.setCsr a (maskedWrite (s.cell a e) e.writeMask value)).done

/-- R143: every CSR to its reset value, and `priv` to Machine. -/
def opCsrReset (s : State) : State :=
  { s with csr := resetCsrs s.config, priv := .machine }.done

/-- R146. -/
def opGetPriv (s : State) : State := s.returns (.mode s.priv)

/-- R147. -/
def opSetPriv (s : State) (mode : Nat) : State :=
  s.withMode mode fun m => { s with priv := m }.done

/-- The next request and the state without it (R71); `none` where the driver has issued none. -/
def takeRequest (s : State) : Option (List Byte × State) :=
  match s.requests with
  | [] => none
  | frame :: rest => some (frame, { s with requests := rest })

/-- `frame` issued as the next request. -/
def State.present (s : State) (frame : List Byte) : State := { s with requests := frame :: s.requests }

end Sys2Proof.Machine
end

