-- ==== Sys2Proof/Machine/Cpu.lean ====
section
/-! DEFINITION. The CPU State operations (43_cpu_state.md): reset, the program counter, the retired-instruction
counter, and the facades of the Register File and the CSR Bank. -/

namespace Sys2Proof.Machine

/-- `CPU.reset()` (R170): the one operation that runs while the block has aborted (R204). -/
def execCpuReset (s : State) : Host.Outcome State Fault Refusal :=
  .next s.resetBlock.done

/-- `CPU.get_pc()` (R171). -/
def execCpuGetPc (s : State) : Host.Outcome State Fault Refusal :=
  .next (s.whileRunning (s.returns (.word s.pc)))

/-- `CPU.set_pc(value)` (R172): no alignment check. -/
def execCpuSetPc (value : Word) (s : State) : Host.Outcome State Fault Refusal :=
  .next (s.whileRunning { s with pc := value }.done)

/-- `CPU.get_inst_count()` (R173). -/
def execCpuGetInstCount (s : State) : Host.Outcome State Fault Refusal :=
  .next (s.whileRunning (s.returns (.count s.icount)))

/-- `CPU.increment_inst_count()` (R174): modulo `2^64`. -/
def execCpuIncrementInstCount (s : State) : Host.Outcome State Fault Refusal :=
  .next (s.whileRunning { s with icount := s.icount + 1#64 }.done)

/-- `CPU.get_r(index)` (R175). -/
def execCpuGetR (index : Nat) (s : State) : Host.Outcome State Fault Refusal :=
  .next (s.whileRunning (opGet s index))

/-- `CPU.set_r(index, value)` (R176). -/
def execCpuSetR (index : Nat) (value : Word) (s : State) : Host.Outcome State Fault Refusal :=
  .next (s.whileRunning (opSet s index value))

/-- `CPU.csr_explicit_read(address)` (R177). -/
def execCpuCsrExplicitRead (address : CsrAddr) (s : State) : Host.Outcome State Fault Refusal :=
  .next (s.whileRunning (opExplicitRead s address))

/-- `CPU.csr_read(address, current_privilege)` (R178). -/
def execCpuCsrRead (address : CsrAddr) (privilege : Nat) (s : State) : Host.Outcome State Fault Refusal :=
  .next (s.whileRunning (opCsrRead s address privilege))

/-- `CPU.csr_write(address, current_privilege, value)` (R179). -/
def execCpuCsrWrite (address : CsrAddr) (privilege : Nat) (value : Word) (s : State) :
    Host.Outcome State Fault Refusal :=
  .next (s.whileRunning (opCsrWrite s address privilege value))

/-- `CPU.csr_reset()` (R180). -/
def execCpuCsrReset (s : State) : Host.Outcome State Fault Refusal :=
  .next (s.whileRunning (opCsrReset s))

/-- `CPU.get_priv()` (R181). -/
def execCpuGetPriv (s : State) : Host.Outcome State Fault Refusal :=
  .next (s.whileRunning (opGetPriv s))

/-- `CPU.set_priv(mode)` (R182). -/
def execCpuSetPriv (mode : Nat) (s : State) : Host.Outcome State Fault Refusal :=
  .next (s.whileRunning (opSetPriv s mode))

end Sys2Proof.Machine
end

