-- ==== Sys2Proof/Machine/Csr.lean ====
section
/-! DEFINITION. The CSR Bank operations (42_csr_bank.md). -/

namespace Sys2Proof.Machine

/-- `CSR.explicit_read(address)` (R140). -/
def execCsrExplicitRead (address : CsrAddr) (s : State) : Host.Outcome State Fault Refusal :=
  .next (s.whileRunning (opExplicitRead s address))

/-- `CSR.read(address, current_privilege)` (R141). -/
def execCsrRead (address : CsrAddr) (privilege : Nat) (s : State) : Host.Outcome State Fault Refusal :=
  .next (s.whileRunning (opCsrRead s address privilege))

/-- `CSR.write(address, current_privilege, value)` (R142). -/
def execCsrWrite (address : CsrAddr) (privilege : Nat) (value : Word) (s : State) :
    Host.Outcome State Fault Refusal :=
  .next (s.whileRunning (opCsrWrite s address privilege value))

/-- `CSR.reset()` (R143). -/
def execCsrReset (s : State) : Host.Outcome State Fault Refusal :=
  .next (s.whileRunning (opCsrReset s))

/-- `CSR.get_priv()` (R146). -/
def execCsrGetPriv (s : State) : Host.Outcome State Fault Refusal :=
  .next (s.whileRunning (opGetPriv s))

/-- `CSR.set_priv(mode)` (R147). -/
def execCsrSetPriv (mode : Nat) (s : State) : Host.Outcome State Fault Refusal :=
  .next (s.whileRunning (opSetPriv s mode))

end Sys2Proof.Machine
end

