-- ==== Sys2Proof/Machine/Reg.lean ====
section
/-! DEFINITION. The Bit-field Register operations (40_bitfield_register.md). They read and write no state of the block
but for the abort of a violated precondition. -/

namespace Sys2Proof.Machine

/-- `REG.read(r)` (R100). -/
def execRegRead (r : Word) (s : State) : Host.Outcome State Fault Refusal :=
  .next (s.whileRunning (s.returns (.word r)))

/-- `REG.as_signed(r)` (R101). -/
def execRegAsSigned (r : Word) (s : State) : Host.Outcome State Fault Refusal :=
  .next (s.whileRunning (s.returns (.signedWord r)))

/-- `REG.bit(r, i)` (R102). -/
def execRegBit (r : Word) (i : Nat) (s : State) : Host.Outcome State Fault Refusal :=
  .next (s.whileRunning (opBit s r i))

/-- `REG.bits(r, hi, lo)` (R103). -/
def execRegBits (r : Word) (hi lo : Nat) (s : State) : Host.Outcome State Fault Refusal :=
  .next (s.whileRunning (opBits s r hi lo))

/-- `REG.write(r, value)` (R104): the old value has no influence. -/
def execRegWrite (_r value : Word) (s : State) : Host.Outcome State Fault Refusal :=
  .next (s.whileRunning (s.returns (.word value)))

/-- `REG.write_bits(r, hi, lo, value)` (R105). -/
def execRegWriteBits (r : Word) (hi lo : Nat) (value : Word) (s : State) : Host.Outcome State Fault Refusal :=
  .next (s.whileRunning (opWriteBits s r hi lo value))

end Sys2Proof.Machine
end

