-- ==== Sys2Proof/Machine/Rf.lean ====
section
/-! DEFINITION. The Register File operations (41_register_file.md). -/

namespace Sys2Proof.Machine

/-- `RF.get(index)` (R120). -/
def execRfGet (index : Nat) (s : State) : Host.Outcome State Fault Refusal :=
  .next (s.whileRunning (opGet s index))

/-- `RF.set(index, value)` (R121). -/
def execRfSet (index : Nat) (value : Word) (s : State) : Host.Outcome State Fault Refusal :=
  .next (s.whileRunning (opSet s index value))

end Sys2Proof.Machine
end

