-- ==== Sys2Proof/Machine/Dispatch.lean ====
section
/-! DEFINITION. The meaning of each operation of R72. -/

namespace Sys2Proof.Machine

def exec (i : Instr) (s : State) : Host.Outcome State Fault Refusal :=
  match i with
  -- Bit-field Register
  | .regRead r => Sys2Proof.Machine.execRegRead r s
  | .regAsSigned r => Sys2Proof.Machine.execRegAsSigned r s
  | .regBit r n => Sys2Proof.Machine.execRegBit r n s
  | .regBits r hi lo => Sys2Proof.Machine.execRegBits r hi lo s
  | .regWrite r value => Sys2Proof.Machine.execRegWrite r value s
  | .regWriteBits r hi lo value => Sys2Proof.Machine.execRegWriteBits r hi lo value s
  -- Register File
  | .rfGet index => Sys2Proof.Machine.execRfGet index s
  | .rfSet index value => Sys2Proof.Machine.execRfSet index value s
  -- CSR Bank
  | .csrExplicitRead address => Sys2Proof.Machine.execCsrExplicitRead address s
  | .csrRead address privilege => Sys2Proof.Machine.execCsrRead address privilege s
  | .csrWrite address privilege value => Sys2Proof.Machine.execCsrWrite address privilege value s
  | .csrReset => Sys2Proof.Machine.execCsrReset s
  | .csrGetPriv => Sys2Proof.Machine.execCsrGetPriv s
  | .csrSetPriv mode => Sys2Proof.Machine.execCsrSetPriv mode s
  -- CPU State
  | .cpuReset => Sys2Proof.Machine.execCpuReset s
  | .cpuGetPc => Sys2Proof.Machine.execCpuGetPc s
  | .cpuSetPc value => Sys2Proof.Machine.execCpuSetPc value s
  | .cpuGetInstCount => Sys2Proof.Machine.execCpuGetInstCount s
  | .cpuIncrementInstCount => Sys2Proof.Machine.execCpuIncrementInstCount s
  | .cpuGetR index => Sys2Proof.Machine.execCpuGetR index s
  | .cpuSetR index value => Sys2Proof.Machine.execCpuSetR index value s
  | .cpuCsrExplicitRead address => Sys2Proof.Machine.execCpuCsrExplicitRead address s
  | .cpuCsrRead address privilege => Sys2Proof.Machine.execCpuCsrRead address privilege s
  | .cpuCsrWrite address privilege value => Sys2Proof.Machine.execCpuCsrWrite address privilege value s
  | .cpuCsrReset => Sys2Proof.Machine.execCpuCsrReset s
  | .cpuGetPriv => Sys2Proof.Machine.execCpuGetPriv s
  | .cpuSetPriv mode => Sys2Proof.Machine.execCpuSetPriv mode s

end Sys2Proof.Machine
end

