-- ==== Sys2Proof/Machine/Request.lean ====
section
/-! DEFINITION. What the block does with one request frame: the operation it carries, the abort of an unassigned op
code (R78), or the stop of a frame that is no request (log 9). -/

namespace Sys2Proof.Machine

/-- The answer to a request with an unassigned op code (R78, R207 (1)). -/
def answerUnassigned (s : State) : State := s.whileRunning (s.abort .unassignedOpcode)

/-- What a decoded frame does. -/
def runDecoded (frame : List Byte) (d : Except DecodeError Instr) (s : State) :
    Host.Outcome State Fault Refusal :=
  match d with
  | .ok i => exec i s
  | .error (.unassignedOpcode _) => .next (answerUnassigned s)
  | .error (.wrongLength _) => .fault (.malformedRequest frame)
  | .error .emptyFrame => .fault (.malformedRequest frame)

/-- One request taken and answered; the state does not change where none is pending (R5). -/
def runNextRequest (s : State) : Host.Outcome State Fault Refusal :=
  match takeRequest s with
  | none => .next s
  | some (frame, rest) => runDecoded frame (decode frame) rest

end Sys2Proof.Machine
end

