-- ==== Sys2Proof/Machine/Step.lean ====
section
/-! DEFINITION. One step of the block: the next request of the driver, from issue to answer (R5, R71). -/

namespace Sys2Proof.Machine

def step (s : State) : Host.Outcome State Fault Refusal := runNextRequest s

/-- `s` with the request whose bits are `w` (as the opcode table numbers them) issued as the next one. -/
def State.withFetchWord (s : State) (nbits w : Nat) : State := s.present (frameOfTableWord nbits w)

end Sys2Proof.Machine
end

