-- ==== Sys2Proof/Safety.lean ====
section
/-! DEFINITION. What claims about the block speak of: the preconditions of the operations (R205), what the driver is
answered, runs, a run without an abort (R204), and the invariant of the state. -/

namespace Sys2Proof.Machine

/-- The bit range meets R73's precondition. -/
def LegalRange (hi lo : Nat) : Prop := lo ≤ hi ∧ hi ≤ 31

/-- The privilege operand is a mode: Supervisor, Machine, or User where it exists (R75). -/
def LegalPrivilege (c : Config) (code : Nat) : Prop :=
  code = 1 ∨ code = 3 ∨ (code = 0 ∧ c.hasUser = true)

/-- The preconditions of R205 on the operands of an operation. -/
def LegalOperands (c : Config) : Instr → Prop
  | .regBit _ i => i ≤ 31
  | .regBits _ hi lo => LegalRange hi lo
  | .regWriteBits _ hi lo value => LegalRange hi lo ∧ value.toNat < 2 ^ (hi - lo + 1)
  | .rfGet index => index ≤ 31
  | .rfSet index _ => index ≤ 31
  | .cpuGetR index => index ≤ 31
  | .cpuSetR index _ => index ≤ 31
  | .csrRead _ privilege => LegalPrivilege c privilege
  | .csrWrite _ privilege _ => LegalPrivilege c privilege
  | .csrSetPriv mode => LegalPrivilege c mode
  | .cpuCsrRead _ privilege => LegalPrivilege c privilege
  | .cpuCsrWrite _ privilege _ => LegalPrivilege c privilege
  | .cpuSetPriv mode => LegalPrivilege c mode
  | _ => True

/-- The op code is one R72 does not list, in the ranges of R78. -/
def UnassignedOpcode (op : Byte) : Prop :=
  (0x06 ≤ op.toNat ∧ op.toNat ≤ 0x0F) ∨ (0x12 ≤ op.toNat ∧ op.toNat ≤ 0x1F) ∨
  (0x26 ≤ op.toNat ∧ op.toNat ≤ 0x2F) ∨ op.toNat = 0x37 ∨ 0x3E ≤ op.toNat

/-- The response an operation ended with. -/
def answerOf : Host.Outcome State Fault Refusal → Option Response
  | .next t => t.responses.head?
  | _ => none

/-- The value an operation returned, where it returned one. -/
def valueOf (o : Host.Outcome State Fault Refusal) : Option Value := (answerOf o).bind Response.value?

/-- The operations `is`, one after another from `s`. -/
def execAll : List Instr → State → Host.Outcome State Fault Refusal
  | [], s => .next s
  | i :: is, s =>
    match exec i s with
    | .next t => execAll is t
    | .fault r => .fault r
    | .refused r => .refused r

/-- `k` steps from `s`, none of which leaves the block aborted: the runs claims are about (R204). -/
def SafeRun : Nat → State → Prop
  | 0, s => s.aborted = false
  | k + 1, s => s.aborted = false ∧ ∃ t, step s = .next t ∧ SafeRun k t

/-- Bits of a CSR outside its write mask are those of its reset value (R149), where its read effect keeps them. -/
def ReadOnlyBitsAtReset (s : State) : Prop :=
  ∀ a e v, s.config.csr? a = some e → e.KeepsReadOnlyBits → s.csr? a = some v →
    v &&& ~~~e.writeMask = e.resetValue &&& ~~~e.writeMask

/-- The invariant of the state. -/
structure State.Inv (s : State) : Prop where
  /-- the configuration passes the check of R38 -/
  configOk : s.config.WellFormed
  /-- the current mode exists (R39, R75) -/
  privExists : s.priv = .user → s.config.hasUser = true
  /-- one cell per defined address and no other (R30) -/
  bankComplete : s.csr.map Prod.fst = s.config.csrMap.map Prod.fst
  /-- R149 -/
  readOnlyBits : ReadOnlyBitsAtReset s
  /-- an aborted block's latest answer is `Abort` (R204) -/
  abortAnswered : s.aborted = true → ∃ e rest, s.responses = .abort e :: rest

end Sys2Proof.Machine
end

