-- ==== Sys2Proof/Certificates/Slice0/Obligations.lean ====
section
/-! DEFINITION. The statements about the block, from the numbered rules of the spec. Every statement is about every
state, and so about every configuration (log 1). -/

open Sys2Proof Sys2Proof.Machine

-- Requests (30_encoding.md)

/-- R5, R71: a step answers the request the driver issued, by the meaning of the operation it decodes to, having taken
the request from the queue. The queue is the model's (log 6). -/
def Obligations.StepRunsIssuedRequest : Prop :=
  ∀ (s : State) (frame : List Byte) (rest : List (List Byte)) (i : Instr),
    s.requests = frame :: rest → decode frame = .ok i → step s = exec i { s with requests := rest }

/-- R5: between two operations the state does not change. That a step with nothing issued is idle is the model's
(log 6). -/
def Obligations.StepIdleWithoutRequest : Prop :=
  ∀ s : State, s.requests = [] → step s = .next s

/-- R78: a request with an op code R72 does not list aborts; the four ranges and 0x37 are R78's. The codes are the
spec's own choice (92_eei_decisions.md D14). The model's: that bytes after the code change nothing of it (log 10,
DEDUCED), the reason (log 12), the queue (log 6). -/
def Obligations.UnassignedOpcodeAborts : Prop :=
  ∀ (s : State) (op : Byte) (operands : List Byte) (rest : List (List Byte)),
    s.requests = (op :: operands) :: rest → s.aborted = false →
    (0x06 ≤ op.toNat ∧ op.toNat ≤ 0x0F) ∨ (0x12 ≤ op.toNat ∧ op.toNat ≤ 0x1F) ∨
      (0x26 ≤ op.toNat ∧ op.toNat ≤ 0x2F) ∨ op.toNat = 0x37 ∨ (0x3E ≤ op.toNat ∧ op.toNat ≤ 0xFF) →
    step s = .next { s with
      requests := rest, aborted := true, responses := .abort .unassignedOpcode :: s.responses }

/-- The model's own stop (log 9): a frame that is no record of its op code's format is no request (R71), and the step
stops with the frame. -/
def Obligations.MalformedFrameStops : Prop :=
  ∀ (s : State) (frame : List Byte) (rest : List (List Byte)), s.requests = frame :: rest →
    decode frame = .error .emptyFrame ∨ (∃ op, decode frame = .error (.wrongLength op)) →
    step s = .fault (.malformedRequest frame)

/-- R72, R73: no operand bit is dropped by a request frame. The byte layout is the model's (log 5). -/
def Obligations.DecodeOfEncodeIsTheRequest : Prop :=
  ∀ i : Instr, i.wellFormed = true → decode (encode i) = .ok i

/-- R71: a frame is one request only, and the frame of that request. The byte layout is the model's (log 5). -/
def Obligations.DecodedFrameIsTheEncoding : Prop :=
  ∀ (frame : List Byte) (i : Instr), decode frame = .ok i → i.wellFormed = true ∧ encode i = frame

/-- Seven request encodings that the programs of 95_test_vectors.md section 3 write out, and the frame that R72 and
R73 give `RF.get(7)`, whose encoding no program writes out. The order of the bytes inside a field is the model's
(log 5). -/
def Obligations.WrittenOutFramesDecode : Prop :=
  decode [0x02#8, 0x00#8, 0x00#8, 0x00#8, 0x00#8, 0x03#8] = .ok (.regBit 0x00000000#32 3) ∧
  decode [0x05#8, 0x80#8, 0x00#8, 0x00#8, 0x00#8, 0x0C#8, 0x0B#8, 0x01#8, 0x00#8, 0x00#8, 0x00#8] =
    .ok (.regWriteBits 0x00000080#32 12 11 0x00000001#32) ∧
  decode [0x10#8, 0x07#8] = .ok (.rfGet 7) ∧
  decode [0x36#8, 0x01#8, 0x32#8, 0x54#8, 0x76#8, 0x98#8] = .ok (.cpuSetR 1 0x98765432#32) ∧
  decode [0x22#8, 0x40#8, 0x01#8, 0x03#8, 0x34#8, 0x12#8, 0x00#8, 0x00#8] =
    .ok (.csrWrite 0x0140#16 3 0x00001234#32) ∧
  decode [0x3D#8, 0x01#8] = .ok (.cpuSetPriv 1) ∧
  decode [0x32#8, 0x00#8, 0x20#8, 0x00#8, 0x00#8] = .ok (.cpuSetPc 0x00002000#32) ∧
  decode [0x30#8] = .ok .cpuReset

/-- R75, R210: the codes of the modes; 0b10, and User's code where User does not exist, names no mode. The codes and
what becomes of User are the spec's own decisions (92_eei_decisions.md D12, D13). That a code of 4 or more, outside the
legal codes of R73, names no mode is the model's reading (log 13, DEDUCED). -/
def Obligations.PrivilegeOperandCodes : Prop :=
  ∀ (c : Config) (code : Nat),
    modeOfCode c code =
      (if code = 0 ∧ c.hasUser = true then some .user else if code = 1 then some .supervisor
       else if code = 3 then some .machine else none) ∧
    rank .user = 0 ∧ rank .supervisor = 1 ∧ rank .machine = 2 ∧
    modeCode .user = 0b00 ∧ modeCode .supervisor = 0b01 ∧ modeCode .machine = 0b11

/-- R76: the status codes, and that only `Ok` comes with a value (R71). The codes are the spec's own choice
(92_eei_decisions.md D14). -/
def Obligations.ResponseStatusCodes : Prop :=
  ∀ (v : Option Value) (a : CsrAddr) (m : PrivMode) (e : ProgrammerError),
    (Response.ok v).status = 0b00#2 ∧ (Response.ok v).value? = v ∧
    (Response.undefinedCsr a).status = 0b01#2 ∧ (Response.undefinedCsr a).value? = none ∧
    (Response.privilegeViolation a m).status = 0b10#2 ∧ (Response.privilegeViolation a m).value? = none ∧
    (Response.abort e).status = 0b11#2 ∧ (Response.abort e).value? = none

-- The Bit-field Register (40_bitfield_register.md)

/-- R100. -/
def Obligations.RegReadReturnsTheWord : Prop :=
  ∀ (s : State) (r : Word), s.aborted = false →
    exec (.regRead r) s = .next { s with responses := .ok (some (.word r)) :: s.responses } ∧
    (Value.word r).bits = r.toNat ∧ (Value.word r).width = 32

/-- R101: the 32 bits of `r`, read as `signed(r)`. -/
def Obligations.RegAsSignedReadsTwosComplement : Prop :=
  ∀ (s : State) (r : Word), s.aborted = false →
    ∃ v, exec (.regAsSigned r) s = .next { s with responses := .ok (some v) :: s.responses } ∧
      v.width = 32 ∧ v.bits = r.toNat ∧
      v.number = (if r.getLsbD 31 = false then (r.toNat : Int) else (r.toNat : Int) - 2 ^ 32)

/-- R102. -/
def Obligations.RegBitReturnsTheBit : Prop :=
  ∀ (s : State) (r : Word) (i : Nat), s.aborted = false →
    (i ≤ 31 → ∃ v, exec (.regBit r i) s = .next { s with responses := .ok (some v) :: s.responses } ∧
      v.width = 1 ∧ v.bits = (r.toNat >>> i) % 2) ∧
    (32 ≤ i → exec (.regBit r i) s = .next { s with
      aborted := true, responses := .abort .bitPositionOutOfRange :: s.responses })

/-- R103, with R77's zero fill; the order of the two checks is R103's, and the abort of a range with `hi < lo` is the
spec's own decision (92_eei_decisions.md D3). -/
def Obligations.RegBitsReturnsTheField : Prop :=
  ∀ (s : State) (r : Word) (hi lo : Nat), s.aborted = false →
    (lo ≤ hi → hi ≤ 31 →
      ∃ v, exec (.regBits r hi lo) s = .next { s with responses := .ok (some v) :: s.responses } ∧
        v.width = hi - lo + 1 ∧ v.bits = (r.toNat >>> lo) % 2 ^ (hi - lo + 1)) ∧
    (32 ≤ hi ∨ 32 ≤ lo → exec (.regBits r hi lo) s = .next { s with
      aborted := true, responses := .abort .bitPositionOutOfRange :: s.responses }) ∧
    (hi < lo → lo ≤ 31 → exec (.regBits r hi lo) s = .next { s with
      aborted := true, responses := .abort .emptyBitRange :: s.responses })

/-- R104: total replacement, whatever the old value. -/
def Obligations.RegWriteReplacesTheWord : Prop :=
  ∀ (s : State) (r value : Word), s.aborted = false →
    exec (.regWrite r value) s = .next { s with responses := .ok (some (.word value)) :: s.responses }

/-- R105: the formula, what it means bit by bit, and the three aborts, of which the one of `hi < lo` and the one of a
value that does not fit are the spec's own decisions (92_eei_decisions.md D3, D2). -/
def Obligations.RegWriteBitsReplacesTheField : Prop :=
  ∀ (s : State) (r : Word) (hi lo : Nat) (value : Word), s.aborted = false →
    (lo ≤ hi → hi ≤ 31 → value.toNat < 2 ^ (hi - lo + 1) →
      ∃ w m : Word, m.toNat = (2 ^ (hi - lo + 1) - 1) * 2 ^ lo ∧
        w = (r &&& ~~~m) ||| ((value <<< lo) &&& m) ∧
        exec (.regWriteBits r hi lo value) s =
          .next { s with responses := .ok (some (.word w)) :: s.responses } ∧
        ∀ j < 32, w.getLsbD j =
          (if lo ≤ j ∧ j ≤ hi then value.getLsbD (j - lo) else r.getLsbD j)) ∧
    (32 ≤ hi ∨ 32 ≤ lo → exec (.regWriteBits r hi lo value) s = .next { s with
      aborted := true, responses := .abort .bitPositionOutOfRange :: s.responses }) ∧
    (hi < lo → lo ≤ 31 → exec (.regWriteBits r hi lo value) s = .next { s with
      aborted := true, responses := .abort .emptyBitRange :: s.responses }) ∧
    (lo ≤ hi → hi ≤ 31 → 2 ^ (hi - lo + 1) ≤ value.toNat →
      exec (.regWriteBits r hi lo value) s = .next { s with
        aborted := true, responses := .abort .valueDoesNotFit :: s.responses })

/-- R106, laws (a) to (g), between the answers of the operations: consequences the spec draws of R100 to R105. -/
def Obligations.RegisterLaws : Prop :=
  ∀ (s : State) (r v f : Word) (hi lo i : Nat), s.aborted = false → lo ≤ hi → hi ≤ 31 → i ≤ 31 →
    f.toNat < 2 ^ (hi - lo + 1) →
    ∃ w g : Word,
      valueOf (exec (.regWrite r v) s) = some (.word v) ∧ valueOf (exec (.regRead v) s) = some (.word v) ∧
      valueOf (exec (.regWriteBits r hi lo f) s) = some (.word w) ∧
      (valueOf (exec (.regBits w hi lo) s)).map Value.bits = some f.toNat ∧
      (∀ j ≤ 31, j < lo ∨ hi < j → valueOf (exec (.regBit w j) s) = valueOf (exec (.regBit r j) s)) ∧
      (valueOf (exec (.regBits r i i) s)).map Value.bits = (valueOf (exec (.regBit r i) s)).map Value.bits ∧
      (valueOf (exec (.regBits r 31 0) s)).map Value.bits =
        (valueOf (exec (.regRead r) s)).map Value.bits ∧
      (valueOf (exec (.regBits r hi lo) s)).map Value.bits = some g.toNat ∧
      valueOf (exec (.regWriteBits r hi lo g) s) = some (.word r) ∧
      (valueOf (exec (.regAsSigned r) s)).map (fun x => x.number % 2 ^ 32) =
        (valueOf (exec (.regRead r) s)).map (fun x => (x.bits : Int))

-- The Register File (41_register_file.md)

/-- R120, R175: slot 0 reads zero, slots 1 to 31 read what they hold, any other index aborts. -/
def Obligations.GetReadsTheSlot : Prop :=
  ∀ s : State, s.aborted = false → ∀ op, op = Instr.rfGet ∨ op = Instr.cpuGetR →
    exec (op 0) s = .next { s with responses := .ok (some (.word 0#32)) :: s.responses } ∧
    (∀ k : Fin 31, exec (op (k.val + 1)) s =
      .next { s with responses := .ok (some (.word s.xs[k.val])) :: s.responses }) ∧
    (∀ n, 32 ≤ n → exec (op n) s = .next { s with
      aborted := true, responses := .abort .registerIndexOutOfRange :: s.responses })

/-- R121, R176: slot 0 discards the write, slots 1 to 31 hold it, any other index aborts; nothing else changes. -/
def Obligations.SetWritesTheSlot : Prop :=
  ∀ (s : State) (v : Word), s.aborted = false → ∀ op, op = Instr.rfSet ∨ op = Instr.cpuSetR →
    exec (op 0 v) s = .next { s with responses := .ok none :: s.responses } ∧
    (∀ k : Fin 31, exec (op (k.val + 1) v) s =
      .next { s with xs := s.xs.set k.val v, responses := .ok none :: s.responses }) ∧
    (∀ n, 32 ≤ n → exec (op n v) s = .next { s with
      aborted := true, responses := .abort .registerIndexOutOfRange :: s.responses })

/-- R123, laws (a) to (e): consequences the spec draws of R120 and R121. -/
def Obligations.RegisterFileLaws : Prop :=
  ∀ (s : State) (i j : Fin 32) (v w : Word), s.aborted = false →
    ∃ t u, exec (.rfSet i.val v) s = .next t ∧ exec (.rfSet i.val w) t = .next u ∧
      valueOf (exec (.rfGet i.val) t) = some (.word (if i.val = 0 then 0#32 else v)) ∧
      (j ≠ i → valueOf (exec (.rfGet j.val) t) = valueOf (exec (.rfGet j.val) s)) ∧
      exec (.rfSet i.val w) s = .next { u with responses := .ok none :: s.responses } ∧
      ∃ x, exec (.rfGet i.val) s = .next { s with responses := .ok (some (.word x)) :: s.responses }

/-- R21: after any operation, reset included, slot 0 reads zero; a write to it is `Ok` and discarded. -/
def Obligations.SlotZeroReadsZero : Prop :=
  (∀ (s t : State) (i : Instr), exec i s = .next t → t.aborted = false →
    valueOf (exec (.rfGet 0) t) = some (.word 0#32) ∧ valueOf (exec (.cpuGetR 0) t) = some (.word 0#32)) ∧
  ∀ (s : State) (v : Word), s.aborted = false →
    exec (.rfSet 0 v) s = .next { s with responses := .ok none :: s.responses } ∧
    exec (.cpuSetR 0 v) s = .next { s with responses := .ok none :: s.responses }

/-- R23: only a `set` and `CPU.reset` change a slot, and a `set` only the slot it names. -/
def Obligations.SlotsChangeOnlyBySet : Prop :=
  ∀ (s t : State) (i : Instr) (k : Fin 31), exec i s = .next t →
    t.xs[k.val] = s.xs[k.val] ∨ i = .cpuReset ∨ ∃ v, i = .rfSet (k.val + 1) v ∨ i = .cpuSetR (k.val + 1) v

-- The CSR Bank (42_csr_bank.md)

/-- R140, R177: the value of a defined CSR in any mode, `UndefinedCsr` for an undefined one, nothing written. -/
def Obligations.ExplicitReadReturnsTheCsr : Prop :=
  ∀ (s : State) (a : CsrAddr), s.aborted = false →
    ∀ op, op = Instr.csrExplicitRead ∨ op = Instr.cpuCsrExplicitRead →
    (s.config.csr? a = none →
      exec (op a) s = .next { s with responses := .undefinedCsr a :: s.responses }) ∧
    (∀ e, s.config.csr? a = some e → ∃ v, s.csr? a = some v ∧
      exec (op a) s = .next { s with responses := .ok (some (.word v)) :: s.responses })

/-- R141, R178: the value of the CSR is returned, the side effect is on the CSR read alone and there is none where
`on_read` is the identity; a read that fails runs none. The spec's own decisions: the order of the checks (R148; D8 of
92_eei_decisions.md), and that the value is the one before the side effect (D9). That an operand of 4 or more is no
mode is the model's reading (log 13, DEDUCED). -/
def Obligations.GatedReadReturnsTheCsr : Prop :=
  ∀ (s : State) (a : CsrAddr) (p : Nat), s.aborted = false →
    ∀ op, op = Instr.csrRead ∨ op = Instr.cpuCsrRead →
    (modeOfCode s.config p = none → exec (op a p) s = .next { s with
      aborted := true, responses := .abort .badPrivilegeOperand :: s.responses }) ∧
    (∀ m, modeOfCode s.config p = some m →
      (s.config.csr? a = none →
        exec (op a p) s = .next { s with responses := .undefinedCsr a :: s.responses }) ∧
      (∀ e, s.config.csr? a = some e → rank m < rank e.minPrivilege →
        exec (op a p) s = .next { s with responses := .privilegeViolation a m :: s.responses }) ∧
      (∀ e, s.config.csr? a = some e → rank e.minPrivilege ≤ rank m →
        ∃ (v : Word) (t : State), s.csr? a = some v ∧ exec (op a p) s = .next t ∧
          t = { s with csr := t.csr, responses := .ok (some (.word v)) :: s.responses } ∧
          t.csr? a = some (e.onRead.apply v) ∧ (∀ b, b ≠ a → t.csr? b = s.csr? b) ∧
          (e.onRead = .identity → t.csr = s.csr)))

/-- R142, R179: the masked bits of the CSR written take the value's, the others and every other CSR stay, and a write
that fails changes nothing. The spec's own decisions: the order of the checks (R148; 92_eei_decisions.md D8), and that
an all-zero mask is no condition (D19). That an operand of 4 or more is no mode is the model's reading (log 13,
DEDUCED). -/
def Obligations.GatedWriteMergesUnderTheMask : Prop :=
  ∀ (s : State) (a : CsrAddr) (p : Nat) (value : Word), s.aborted = false →
    ∀ op, op = Instr.csrWrite ∨ op = Instr.cpuCsrWrite →
    (modeOfCode s.config p = none → exec (op a p value) s = .next { s with
      aborted := true, responses := .abort .badPrivilegeOperand :: s.responses }) ∧
    (∀ m, modeOfCode s.config p = some m →
      (s.config.csr? a = none →
        exec (op a p value) s = .next { s with responses := .undefinedCsr a :: s.responses }) ∧
      (∀ e, s.config.csr? a = some e → rank m < rank e.minPrivilege →
        exec (op a p value) s = .next { s with responses := .privilegeViolation a m :: s.responses }) ∧
      (∀ e, s.config.csr? a = some e → rank e.minPrivilege ≤ rank m →
        ∃ (v : Word) (t : State), s.csr? a = some v ∧ exec (op a p value) s = .next t ∧
          t = { s with csr := t.csr, responses := .ok none :: s.responses } ∧
          t.csr? a = some ((v &&& ~~~e.writeMask) ||| (value &&& e.writeMask)) ∧
          (∀ b, b ≠ a → t.csr? b = s.csr? b)))

/-- R143, R180: every defined CSR takes its reset value and the mode returns to Machine; slots, `pc` and `icount`
stay. Under a configuration that passes R38's check the named fields are zero. That the mode returns to Machine is the
spec's own decision (92_eei_decisions.md D16). -/
def Obligations.CsrResetRestoresTheBank : Prop :=
  ∀ s : State, s.aborted = false → ∀ op, op = Instr.csrReset ∨ op = Instr.cpuCsrReset →
    ∃ t, exec op s = .next t ∧
      t = { s with csr := t.csr, priv := .machine, responses := .ok none :: s.responses } ∧
      (∀ a e, s.config.csr? a = some e → t.csr? a = some e.resetValue) ∧
      (s.config.WellFormed →
        (∃ v, t.csr? s.config.mstatus = some v ∧ v.getLsbD 3 = false ∧ v.getLsbD 17 = false) ∧
        (∃ v, t.csr? s.config.mstatush = some v ∧ v.getLsbD 5 = false) ∧
        t.csr? s.config.misa = some 0#32 ∧ t.csr? s.config.mcause = some 0#32 ∧
        ∀ a, s.config.pmpcfgStart ≤ a → a ≤ s.config.pmpcfgEnd →
          ∃ v, t.csr? a = some v ∧ v.getLsbD 3 = false ∧ v.getLsbD 4 = false ∧ v.getLsbD 7 = false)

/-- R146, R181; the accessor is the spec's own decision (92_eei_decisions.md D6). -/
def Obligations.GetPrivReturnsTheMode : Prop :=
  ∀ s : State, s.aborted = false → ∀ op, op = Instr.csrGetPriv ∨ op = Instr.cpuGetPriv →
    exec op s = .next { s with responses := .ok (some (.mode s.priv)) :: s.responses }

/-- R147, R182: any transition between modes that exist; nothing else changes; an operand that is no mode aborts. The
accessor and that every transition is accepted are the spec's own decisions (92_eei_decisions.md D6, D30). That an
operand of 4 or more is no mode is the model's reading (log 13, DEDUCED). -/
def Obligations.SetPrivSwitchesTheMode : Prop :=
  ∀ (s : State) (code : Nat), s.aborted = false → ∀ op, op = Instr.csrSetPriv ∨ op = Instr.cpuSetPriv →
    (∀ m, modeOfCode s.config code = some m →
      exec (op code) s = .next { s with priv := m, responses := .ok none :: s.responses }) ∧
    (modeOfCode s.config code = none → exec (op code) s = .next { s with
      aborted := true, responses := .abort .badPrivilegeOperand :: s.responses })

/-- R153, laws (a) to (f), for the operations as a driver chains them: (a) the masked write, (b) the other CSRs,
(c) inspection, (d) the modes that are not sufficient, (e) the undefined addresses, (f) reset. Consequences the spec
draws of R140 to R143. -/
def Obligations.CsrBankLaws : Prop :=
  ∀ (s : State) (a : CsrAddr) (v : Word), s.aborted = false →
    (∀ (e : CsrRecord) (p : Nat) (m : PrivMode),
      s.config.csr? a = some e → modeOfCode s.config p = some m → rank e.minPrivilege ≤ rank m →
      ∃ (old : Word) (t u : State),
        exec (.csrExplicitRead a) s = .next { s with responses := .ok (some (.word old)) :: s.responses } ∧
        exec (.csrWrite a p v) s = .next t ∧
        valueOf (exec (.csrExplicitRead a) t) =
          some (.word ((old &&& ~~~e.writeMask) ||| (v &&& e.writeMask))) ∧
        (∀ b, b ≠ a → answerOf (exec (.csrExplicitRead b) t) = answerOf (exec (.csrExplicitRead b) s)) ∧
        exec .csrReset t = .next u ∧
        ∀ b f, s.config.csr? b = some f → valueOf (exec (.csrExplicitRead b) u) = some (.word f.resetValue)) ∧
    (∀ (e : CsrRecord) (q : Nat) (n : PrivMode),
      s.config.csr? a = some e → modeOfCode s.config q = some n → rank n < rank e.minPrivilege →
      exec (.csrRead a q) s = .next { s with responses := .privilegeViolation a n :: s.responses } ∧
      exec (.csrWrite a q v) s = .next { s with responses := .privilegeViolation a n :: s.responses }) ∧
    (s.config.csr? a = none →
      exec (.csrExplicitRead a) s = .next { s with responses := .undefinedCsr a :: s.responses } ∧
      ∀ q n, modeOfCode s.config q = some n →
        exec (.csrRead a q) s = .next { s with responses := .undefinedCsr a :: s.responses } ∧
        exec (.csrWrite a q v) s = .next { s with responses := .undefinedCsr a :: s.responses })

/-- R39, R145, R210: the current mode governs no operation but the two that return it; in another mode an operation
gives the same answer and leaves the same state, but for the mode itself where the operation leaves it as it was. That
the gate reads its operand and not the mode is the spec's own decision (92_eei_decisions.md D6). -/
def Obligations.CurrentModeGovernsNoOperation : Prop :=
  ∀ (s : State) (m : PrivMode) (i : Instr), i ≠ .csrGetPriv → i ≠ .cpuGetPriv →
    ∃ t u, exec i s = .next t ∧ exec i { s with priv := m } = .next u ∧ u = { t with priv := u.priv } ∧
      ((t.priv = s.priv ∧ u.priv = m) ∨ u.priv = t.priv)

/-- R39, R211: only `set_priv` and a reset change the mode, and a reset leaves Machine (for `CSR.reset` by the spec's
decision, 92_eei_decisions.md D16). -/
def Obligations.ModeChangesOnlyBySetPriv : Prop :=
  ∀ (s t : State) (i : Instr), exec i s = .next t →
    t.priv = s.priv ∨ (∃ code, i = .csrSetPriv code ∨ i = .cpuSetPriv code) ∨
    ((i = .csrReset ∨ i = .cpuCsrReset ∨ i = .cpuReset) ∧ t.priv = .machine)

/-- R42, R58: only a gated read, a gated write and a reset change a CSR, and a gated access only the one it names (the
spec's own decision, 92_eei_decisions.md D10, D22). -/
def Obligations.CsrsChangeOnlyByAccess : Prop :=
  ∀ (s t : State) (i : Instr) (a : CsrAddr), exec i s = .next t →
    t.csr? a = s.csr? a ∨ (∃ p, i = .csrRead a p ∨ i = .cpuCsrRead a p) ∨
    (∃ p v, i = .csrWrite a p v ∨ i = .cpuCsrWrite a p v) ∨
    i = .csrReset ∨ i = .cpuCsrReset ∨ i = .cpuReset

/-- R149: bits outside the write mask are those of the reset value at every point between operations, for every CSR
whose read effect keeps them: so after reset under any configuration, and every step keeps it so. The spec derives it
of R141 to R143. -/
def Obligations.ReadOnlyBitsKeepTheirResetValue : Prop :=
  (∀ c : Config, ReadOnlyBitsAtReset (State.afterReset c)) ∧
  ∀ s t : State, ReadOnlyBitsAtReset s → step s = .next t → ReadOnlyBitsAtReset t

-- The CPU State (43_cpu_state.md)

/-- R170: every element takes its reset value, whether or not the block has aborted. The operation, and that slots 1 to
31 take `XRESET` again, are the spec's own decisions (92_eei_decisions.md D17, D5; log 16). -/
def Obligations.CpuResetResetsTheBlock : Prop :=
  ∀ s : State, ∃ t, exec .cpuReset s = .next t ∧
    t = { s with
      pc := 0#32, icount := 0#64, xs := s.config.xreset, csr := t.csr, priv := .machine, aborted := false,
      responses := .ok none :: s.responses } ∧
    ∀ a, t.csr? a = (s.config.csr? a).map CsrRecord.resetValue

/-- R171, R172: any 32-bit value is stored unchanged and read back, and nothing else changes. -/
def Obligations.ProgramCounterRoundTrips : Prop :=
  ∀ (s : State) (v : Word), s.aborted = false →
    exec .cpuGetPc s = .next { s with responses := .ok (some (.word s.pc)) :: s.responses } ∧
    exec (.cpuSetPc v) s = .next { s with pc := v, responses := .ok none :: s.responses } ∧
    ∀ t, exec (.cpuSetPc v) s = .next t → valueOf (exec .cpuGetPc t) = some (.word v)

/-- R26, which the spec derives of R171 and R172: only `CPU.set_pc` and `CPU.reset` change `pc`. -/
def Obligations.PcChangesOnlyBySetPc : Prop :=
  ∀ (s t : State) (i : Instr), exec i s = .next t →
    t.pc = s.pc ∨ i = .cpuSetPc t.pc ∨ (i = .cpuReset ∧ t.pc = 0#32)

/-- R173, R174: the count is returned, and an increment adds 1 modulo 2^64 and changes nothing else. The width is the
spec's own decision (92_eei_decisions.md D7). -/
def Obligations.CounterCountsByOne : Prop :=
  ∀ s : State, s.aborted = false →
    exec .cpuGetInstCount s = .next { s with responses := .ok (some (.count s.icount)) :: s.responses } ∧
    ∃ n : Count, n.toNat = (s.icount.toNat + 1) % 2 ^ 64 ∧
      exec .cpuIncrementInstCount s = .next { s with icount := n, responses := .ok none :: s.responses }

/-- R28: only `CPU.increment_inst_count` and `CPU.reset` change the counter (the width and the independence are the
spec's own decisions, 92_eei_decisions.md D7, D22). -/
def Obligations.CounterChangesOnlyByIncrement : Prop :=
  ∀ (s t : State) (i : Instr), exec i s = .next t →
    t.icount = s.icount ∨ (i = .cpuIncrementInstCount ∧ t.icount.toNat = (s.icount.toNat + 1) % 2 ^ 64) ∨
    (i = .cpuReset ∧ t.icount = 0#64)

/-- R185 (b), which the spec derives, of any running state: `n` increments add `n` modulo 2^64 and change nothing else. -/
def Obligations.IncrementsAddUp : Prop :=
  ∀ (n : Nat) (s : State), s.aborted = false →
    ∃ t, execAll (List.replicate n .cpuIncrementInstCount) s = .next t ∧
      t.icount.toNat = (s.icount.toNat + n) % 2 ^ 64 ∧
      t = { s with icount := t.icount, responses := List.replicate n (.ok none) ++ s.responses }

/-- R175 to R182, R185 (d): each facade operation is the component's operation (the facade of the CSR Bank is
the spec's own decision, 92_eei_decisions.md D32). -/
def Obligations.FacadeIsTheComponent : Prop :=
  ∀ s : State,
    (∀ n, exec (.cpuGetR n) s = exec (.rfGet n) s) ∧
    (∀ n v, exec (.cpuSetR n v) s = exec (.rfSet n v) s) ∧
    (∀ a, exec (.cpuCsrExplicitRead a) s = exec (.csrExplicitRead a) s) ∧
    (∀ a p, exec (.cpuCsrRead a p) s = exec (.csrRead a p) s) ∧
    (∀ a p v, exec (.cpuCsrWrite a p v) s = exec (.csrWrite a p v) s) ∧
    exec .cpuCsrReset s = exec .csrReset s ∧
    exec .cpuGetPriv s = exec .csrGetPriv s ∧
    ∀ m, exec (.cpuSetPriv m) s = exec (.csrSetPriv m) s

/-- R55: doing a write twice leaves the state of doing it once; only the answers are one more. For `CPU.reset` this
rests on slots 1 to 31 taking the same `XRESET` twice (log 16, DEDUCED). -/
def Obligations.WritesAreIdempotent : Prop :=
  ∀ (s t : State) (i : Instr), exec i s = .next t →
    (∃ n v, i = .rfSet n v ∨ i = .cpuSetR n v) ∨ (∃ v, i = .cpuSetPc v) ∨
      (∃ a p v, i = .csrWrite a p v ∨ i = .cpuCsrWrite a p v) ∨
      (∃ m, i = .csrSetPriv m ∨ i = .cpuSetPriv m) ∨ i = .csrReset ∨ i = .cpuCsrReset ∨ i = .cpuReset →
    ∃ u, exec i t = .next u ∧ u = { t with responses := u.responses }

/-- R55: the reads without a side effect change nothing but the answers, and give the same answer again. -/
def Obligations.InspectionIsRepeatable : Prop :=
  ∀ (s : State) (i : Instr), s.aborted = false →
    (∃ r, i = .regRead r ∨ i = .regAsSigned r) ∨ (∃ r n, n ≤ 31 ∧ i = .regBit r n) ∨
      (∃ r hi lo, lo ≤ hi ∧ hi ≤ 31 ∧ i = .regBits r hi lo) ∨
      (∃ n, n ≤ 31 ∧ (i = .rfGet n ∨ i = .cpuGetR n)) ∨ i = .cpuGetPc ∨ i = .cpuGetInstCount ∨
      i = .csrGetPriv ∨ i = .cpuGetPriv ∨ (∃ a, i = .csrExplicitRead a ∨ i = .cpuCsrExplicitRead a) →
    ∃ r, exec i s = .next { s with responses := r :: s.responses } ∧
      exec i { s with responses := r :: s.responses } =
        .next { s with responses := r :: r :: s.responses }

-- Conditions and aborts (60_exceptions.md)

/-- R243, with R9: every operation ends in one step with one response. It changes no parameter (R41, R233), which
State carries by the model's choice (log 1). The driver's queue, of which it takes nothing, and the list of responses
are the model's (log 6, log 7). -/
def Obligations.EveryOperationAnswersOnce : Prop :=
  ∀ (s : State) (i : Instr), ∃ t r, exec i s = .next t ∧ t.responses = r :: s.responses ∧
    t.requests = s.requests ∧ t.config = s.config

/-- R201, R202: which operations end in which condition, when, and what the condition carries (log 11). -/
def Obligations.ConditionsComeFromCsrAccesses : Prop :=
  ∀ (s t : State) (i : Instr) (a : CsrAddr), exec i s = .next t →
    (∀ m, t.responses = .privilegeViolation a m :: s.responses →
      ∃ p e, modeOfCode s.config p = some m ∧ s.config.csr? a = some e ∧ rank m < rank e.minPrivilege ∧
        (i = .csrRead a p ∨ i = .cpuCsrRead a p ∨ ∃ v, i = .csrWrite a p v ∨ i = .cpuCsrWrite a p v)) ∧
    (t.responses = .undefinedCsr a :: s.responses →
      s.config.csr? a = none ∧
        (i = .csrExplicitRead a ∨ i = .cpuCsrExplicitRead a ∨ (∃ p, i = .csrRead a p ∨ i = .cpuCsrRead a p) ∨
          ∃ p v, i = .csrWrite a p v ∨ i = .cpuCsrWrite a p v))

/-- R203: an operation that ends in a recoverable condition changes no state and leaves the block ready (the
spec's own decision, 92_eei_decisions.md D18). -/
def Obligations.ConditionChangesNothing : Prop :=
  ∀ (s t : State) (i : Instr) (r : Response), exec i s = .next t → t.responses = r :: s.responses →
    r.isCondition = true → t = { s with responses := r :: s.responses } ∧ t.aborted = false

/-- R204: an operation that ends in an abort changes nothing but `aborted` (the spec's own decision,
92_eei_decisions.md D4; that the abort is a next state is the model's reading, log 8). -/
def Obligations.AbortChangesOnlyItsFlag : Prop :=
  ∀ (s t : State) (i : Instr) (e : ProgrammerError), exec i s = .next t →
    t.responses = .abort e :: s.responses →
    t = { s with aborted := true, responses := .abort e :: s.responses }

/-- R204: while the block has aborted every operation but `CPU.reset` answers `Abort` and changes nothing (the spec's
own decision, 92_eei_decisions.md D4). -/
def Obligations.AbortedBlockOnlyAborts : Prop :=
  ∀ (s : State) (i : Instr), s.aborted = true → i ≠ .cpuReset →
    ∃ e, exec i s = .next { s with responses := .abort e :: s.responses }

/-- R205: an operation aborts exactly when a precondition of the list is violated; the op code's row is of the step. Of
the list the spec names as its own decisions D2, D3, D4, D12, D13 and D14 of 92_eei_decisions.md. The model's: that a
privilege operand of 4 or more is no mode (log 13, DEDUCED), that bytes after an unassigned op code change nothing of
the abort (log 10, DEDUCED), the queue (log 6). -/
def Obligations.AbortCausesAreTheList : Prop :=
  (∀ (s t : State) (i : Instr), exec i s = .next t →
    (t.aborted = true ↔ i ≠ .cpuReset ∧ (s.aborted = true ∨ ¬LegalOperands s.config i))) ∧
  ∀ (s : State) (op : Byte) (operands : List Byte) (rest : List (List Byte)),
    s.requests = (op :: operands) :: rest → UnassignedOpcode op → ∃ t, step s = .next t ∧ t.aborted = true

-- Reset and the whole machine (10_state.md, 70_reset_and_hazards.md)

/-- R27, R29: the two reset values the source states of the CPU State, of the machine and of every reset. -/
def Obligations.PcAndCounterZeroAtReset : Prop :=
  State.reset.pc = 0#32 ∧ State.reset.icount = 0#64 ∧
  ∀ s t : State, exec .cpuReset s = .next t → t.pc = 0#32 ∧ t.icount = 0#64

/-- R43: the state after reset, under every configuration that passes R38's check; the machine's is one (log 2). The
slots' `XRESET` and the abort flag are the spec's own decisions (92_eei_decisions.md D5, D4). -/
def Obligations.ResetStateIsTheTable : Prop :=
  (∃ c : Config, c.WellFormed ∧ State.reset = State.afterReset c) ∧
  ∀ c : Config, c.WellFormed → ∀ s, s = State.afterReset c →
    s.config = c ∧ s.slot 0 = 0#32 ∧ s.xs = c.xreset ∧ s.pc = 0#32 ∧ s.icount = 0#64 ∧ s.priv = .machine ∧
    s.aborted = false ∧
    (∃ v, s.csr? c.mstatus = some v ∧ v.getLsbD 3 = false ∧ v.getLsbD 17 = false) ∧
    (∃ v, s.csr? c.mstatush = some v ∧ v.getLsbD 5 = false) ∧
    s.csr? c.misa = some 0#32 ∧ s.csr? c.mcause = some 0#32 ∧
    (∀ a, c.pmpcfgStart ≤ a → a ≤ c.pmpcfgEnd →
      ∃ v, s.csr? a = some v ∧ v.getLsbD 3 = false ∧ v.getLsbD 4 = false ∧ v.getLsbD 7 = false) ∧
    ∀ a e, c.csr? a = some e → s.csr? a = some e.resetValue

/-- R38, R233: the configuration, `Config.chosen` (log 2), passes the check, with R149's requirement on read effects
(log 4). -/
def Obligations.ConfigurationPassesTheCheck : Prop := State.reset.config.WellFormed

/-- R41, R233: no step changes a parameter (log 1). -/
def Obligations.ParametersNeverChange : Prop :=
  ∀ s t : State, step s = .next t → t.config = s.config

/-- R40, R204: a step that leaves an aborted block running took a `CPU.reset`, and the block is as R170 leaves it (the
spec's own decisions, 92_eei_decisions.md D4, D17). That slots 1 to 31 take `XRESET` (D5) again at a later reset is the
model's reading (log 16, DEDUCED); the queue and the list of responses are the model's (log 6, log 7). -/
def Obligations.OnlyResetEndsAnAbort : Prop :=
  ∀ s t : State, s.aborted = true → step s = .next t → t.aborted = false →
    ∃ frame rest, s.requests = frame :: rest ∧ decode frame = .ok .cpuReset ∧
      t = { State.afterReset s.config with requests := rest, responses := .ok none :: s.responses }

/-- R30, R38, R39, R149, R204: every step keeps the invariant of the state. That the check of the configuration asks
every read effect to keep read-only bits is the model's reading (log 4, DEDUCED); the list of responses, which shows
the `Abort`, is the model's (log 7). -/
def Obligations.StepKeepsTheStateInvariant : Prop :=
  ∀ s t : State, s.Inv → step s = .next t → t.Inv

/-- R30, R38, R39, R43, R149, R233: the machine after reset meets the invariant of the state. Its configuration is
`Config.chosen`, one that passes the check and that nothing tells more of (log 2, DESIGN CHOICE); the check asks every
read effect to keep read-only bits (log 4, DEDUCED). -/
def Obligations.ResetMeetsTheStateInvariant : Prop := State.reset.Inv
end

