-- ==== Sys2Proof/Laws/Config.lean ====
section
/-! SUPPORT. Lemmas about the configuration: a defined address has its record in the list, the named CSRs have the
records R32 to R36 ask for, and the chosen configuration passes the check of R38. -/

namespace Sys2Proof

theorem mem_of_lookup {α β : Type} [BEq α] [LawfulBEq α] {l : List (α × β)} {a : α} {b : β}
    (h : l.lookup a = some b) : (a, b) ∈ l := by
  induction l with
  | nil => simp at h
  | cons x rest ih =>
    obtain ⟨k, v⟩ := x
    rw [List.lookup_cons] at h
    split at h
    · rename_i heq
      simp_all
    · exact List.mem_cons_of_mem _ (ih h)

/-- The record of a defined address is one of the map's. -/
theorem Config.mem_of_csr? {c : Config} {a : CsrAddr} {e : CsrRecord} (h : c.csr? a = some e) :
    (a, e) ∈ c.csrMap := mem_of_lookup h

/-- A named CSR is defined, with a record that meets R32 to R36. -/
theorem Config.NamesCsr.record {c : Config} {a : CsrAddr} {zero : Word} (h : c.NamesCsr a zero) :
    ∃ e, c.csr? a = some e ∧ e.Named zero := by
  obtain ⟨e, he⟩ := Option.isSome_iff_exists.mp h.1
  exact ⟨e, he, h.2 _ (Config.mem_of_csr? he) rfl⟩

/-- Any record of a named CSR meets R32 to R36. -/
theorem Config.NamesCsr.named {c : Config} {a : CsrAddr} {zero : Word} {e : CsrRecord} (h : c.NamesCsr a zero)
    (he : c.csr? a = some e) : e.Named zero := h.2 _ (Config.mem_of_csr? he) rfl

theorem Config.WellFormed.namesMstatus {c : Config} (h : c.WellFormed) :
    c.NamesCsr c.mstatus mstatusZeroAtReset := h.2.2.2.1

theorem Config.WellFormed.namesMisa {c : Config} (h : c.WellFormed) :
    c.NamesCsr c.misa (BitVec.allOnes 32) := h.2.2.2.2.1

theorem Config.WellFormed.namesMstatush {c : Config} (h : c.WellFormed) :
    c.NamesCsr c.mstatush mstatushZeroAtReset := h.2.2.2.2.2.1

theorem Config.WellFormed.namesMcause {c : Config} (h : c.WellFormed) :
    c.NamesCsr c.mcause (BitVec.allOnes 32) := h.2.2.2.2.2.2.1

theorem Config.WellFormed.pmpcfgOrder {c : Config} (h : c.WellFormed) :
    c.pmpcfgStart ≤ c.pmpcfgEnd := h.2.2.2.2.2.2.2.1

theorem Config.WellFormed.namesPmpcfg {c : Config} (h : c.WellFormed) {a : CsrAddr} (h₁ : c.pmpcfgStart ≤ a)
    (h₂ : a ≤ c.pmpcfgEnd) : c.NamesCsr a pmpcfgZeroAtReset := h.2.2.2.2.2.2.2.2 a h₁ h₂

theorem CsrRecord.plain_keepsReadOnlyBits : CsrRecord.plain.KeepsReadOnlyBits := fun _ => rfl

theorem Config.fallback_mem {x : CsrAddr × CsrRecord} (h : x ∈ Config.fallback.csrMap) : x.2 = .plain := by
  simp only [Config.fallback, List.mem_append, List.mem_cons, List.not_mem_nil, or_false, List.mem_map] at h
  rcases h with (h | h | h | h) | ⟨k, -, h⟩ <;> subst h <;> rfl

theorem CsrRecord.plain_named (zero : Word) : CsrRecord.plain.Named zero := by
  simp [CsrRecord.Named, CsrRecord.plain]

theorem Config.fallback_namesCsr {a : CsrAddr} {zero : Word} (h : (Config.fallback.csr? a).isSome = true) :
    Config.fallback.NamesCsr a zero :=
  ⟨h, fun e he _ => by rw [Config.fallback_mem he]; exact CsrRecord.plain_named zero⟩

theorem Config.fallback_pmpcfg (a : CsrAddr) (h₁ : 0x3A0#16 ≤ a) (h₂ : a ≤ 0x3AF#16) :
    (Config.fallback.csr? a).isSome = true := by
  have h₁' : 928 ≤ a.toNat := by simpa [BitVec.le_def] using h₁
  have h₂' : a.toNat ≤ 943 := by simpa [BitVec.le_def] using h₂
  obtain ⟨n, hn⟩ : ∃ n, a.toNat = n := ⟨_, rfl⟩
  have ha : a = BitVec.ofNat 16 n := by rw [← hn]; simp
  rw [hn] at h₁' h₂'
  subst ha
  clear hn h₁ h₂
  interval_cases n <;> decide

/-- Some configuration passes the check of R38. -/
theorem Config.fallback_wellFormed : Config.fallback.WellFormed := by
  refine ⟨by decide, ?_, ?_, ?_, ?_, ?_, ?_, by decide, ?_⟩
  · intro e he h
    rw [Config.fallback_mem he] at h
    cases h
  · intro e he
    rw [Config.fallback_mem he]
    exact CsrRecord.plain_keepsReadOnlyBits
  · exact Config.fallback_namesCsr (by decide)
  · exact Config.fallback_namesCsr (by decide)
  · exact Config.fallback_namesCsr (by decide)
  · exact Config.fallback_namesCsr (by decide)
  · exact fun a h₁ h₂ => Config.fallback_namesCsr (Config.fallback_pmpcfg a h₁ h₂)

end Sys2Proof
end

