-- ==== Sys2Proof/Laws/State.lean ====
section
/-! SUPPORT. One lemma per field per update of the state. -/

namespace Sys2Proof.Machine

variable (s : State)

@[simp] theorem answer_config (r : Response) : (s.answer r).config = s.config := rfl
@[simp] theorem answer_xs (r : Response) : (s.answer r).xs = s.xs := rfl
@[simp] theorem answer_pc (r : Response) : (s.answer r).pc = s.pc := rfl
@[simp] theorem answer_icount (r : Response) : (s.answer r).icount = s.icount := rfl
@[simp] theorem answer_csr (r : Response) : (s.answer r).csr = s.csr := rfl
@[simp] theorem answer_priv (r : Response) : (s.answer r).priv = s.priv := rfl
@[simp] theorem answer_aborted (r : Response) : (s.answer r).aborted = s.aborted := rfl
@[simp] theorem answer_requests (r : Response) : (s.answer r).requests = s.requests := rfl
@[simp] theorem answer_responses (r : Response) : (s.answer r).responses = r :: s.responses := rfl

@[simp] theorem returns_config (v : Value) : (s.returns v).config = s.config := rfl
@[simp] theorem returns_xs (v : Value) : (s.returns v).xs = s.xs := rfl
@[simp] theorem returns_pc (v : Value) : (s.returns v).pc = s.pc := rfl
@[simp] theorem returns_icount (v : Value) : (s.returns v).icount = s.icount := rfl
@[simp] theorem returns_csr (v : Value) : (s.returns v).csr = s.csr := rfl
@[simp] theorem returns_priv (v : Value) : (s.returns v).priv = s.priv := rfl
@[simp] theorem returns_aborted (v : Value) : (s.returns v).aborted = s.aborted := rfl
@[simp] theorem returns_requests (v : Value) : (s.returns v).requests = s.requests := rfl
@[simp] theorem returns_responses (v : Value) : (s.returns v).responses = .ok (some v) :: s.responses := rfl

@[simp] theorem done_config : s.done.config = s.config := rfl
@[simp] theorem done_xs : s.done.xs = s.xs := rfl
@[simp] theorem done_pc : s.done.pc = s.pc := rfl
@[simp] theorem done_icount : s.done.icount = s.icount := rfl
@[simp] theorem done_csr : s.done.csr = s.csr := rfl
@[simp] theorem done_priv : s.done.priv = s.priv := rfl
@[simp] theorem done_aborted : s.done.aborted = s.aborted := rfl
@[simp] theorem done_requests : s.done.requests = s.requests := rfl
@[simp] theorem done_responses : s.done.responses = .ok none :: s.responses := rfl

@[simp] theorem abort_config (e : ProgrammerError) : (s.abort e).config = s.config := rfl
@[simp] theorem abort_xs (e : ProgrammerError) : (s.abort e).xs = s.xs := rfl
@[simp] theorem abort_pc (e : ProgrammerError) : (s.abort e).pc = s.pc := rfl
@[simp] theorem abort_icount (e : ProgrammerError) : (s.abort e).icount = s.icount := rfl
@[simp] theorem abort_csr (e : ProgrammerError) : (s.abort e).csr = s.csr := rfl
@[simp] theorem abort_priv (e : ProgrammerError) : (s.abort e).priv = s.priv := rfl
@[simp] theorem abort_aborted (e : ProgrammerError) : (s.abort e).aborted = true := rfl
@[simp] theorem abort_requests (e : ProgrammerError) : (s.abort e).requests = s.requests := rfl
@[simp] theorem abort_responses (e : ProgrammerError) : (s.abort e).responses = .abort e :: s.responses := rfl

/-- The reset of the block is the state of `State.afterReset` but for the driver's queue and answers. -/
theorem resetBlock_eq_afterReset :
    s.resetBlock = { State.afterReset s.config with requests := s.requests, responses := s.responses } := rfl

@[simp] theorem resetBlock_config : s.resetBlock.config = s.config := rfl
@[simp] theorem resetBlock_xs : s.resetBlock.xs = s.config.xreset := rfl
@[simp] theorem resetBlock_pc : s.resetBlock.pc = 0#32 := rfl
@[simp] theorem resetBlock_icount : s.resetBlock.icount = 0#64 := rfl
@[simp] theorem resetBlock_csr :
    s.resetBlock.csr = s.config.csrMap.map fun e => (e.1, e.2.resetValue) := rfl
@[simp] theorem resetBlock_priv : s.resetBlock.priv = .machine := rfl
@[simp] theorem resetBlock_aborted : s.resetBlock.aborted = false := rfl
@[simp] theorem resetBlock_requests : s.resetBlock.requests = s.requests := rfl
@[simp] theorem resetBlock_responses : s.resetBlock.responses = s.responses := rfl

@[simp] theorem setCsr_config (a : CsrAddr) (v : Word) : (s.setCsr a v).config = s.config := rfl
@[simp] theorem setCsr_xs (a : CsrAddr) (v : Word) : (s.setCsr a v).xs = s.xs := rfl
@[simp] theorem setCsr_pc (a : CsrAddr) (v : Word) : (s.setCsr a v).pc = s.pc := rfl
@[simp] theorem setCsr_icount (a : CsrAddr) (v : Word) : (s.setCsr a v).icount = s.icount := rfl
@[simp] theorem setCsr_csr (a : CsrAddr) (v : Word) : (s.setCsr a v).csr = bankSet s.csr a v := rfl
@[simp] theorem setCsr_priv (a : CsrAddr) (v : Word) : (s.setCsr a v).priv = s.priv := rfl
@[simp] theorem setCsr_aborted (a : CsrAddr) (v : Word) : (s.setCsr a v).aborted = s.aborted := rfl
@[simp] theorem setCsr_requests (a : CsrAddr) (v : Word) : (s.setCsr a v).requests = s.requests := rfl
@[simp] theorem setCsr_responses (a : CsrAddr) (v : Word) : (s.setCsr a v).responses = s.responses := rfl

@[simp] theorem present_requests (f : List Byte) : (s.present f).requests = f :: s.requests := rfl
@[simp] theorem present_aborted (f : List Byte) : (s.present f).aborted = s.aborted := rfl
@[simp] theorem present_config (f : List Byte) : (s.present f).config = s.config := rfl

@[simp] theorem setSlot_zero (v : Word) : s.setSlot 0 v = s := rfl

/-- The write of a stored slot. -/
theorem setSlot_succ (k : Fin 31) (v : Word) :
    s.setSlot k.succ v = { s with xs := s.xs.set k.val v } := by
  simp [State.setSlot, Fin.succ_ne_zero]

/-- `setSlot` writes `xs` and nothing else. -/
theorem setSlot_eq (i : Fin 32) (v : Word) : s.setSlot i v = { s with xs := (s.setSlot i v).xs } := by
  unfold State.setSlot
  split <;> rfl

@[simp] theorem slot_zero : s.slot 0 = 0#32 := rfl

/-- The read of a stored slot. -/
theorem slot_succ (k : Fin 31) : s.slot k.succ = s.xs[k.val] := by
  simp [State.slot, Fin.succ_ne_zero]

/-- `applyReadEffect` writes the bank and nothing else. -/
theorem applyReadEffect_eq (a : CsrAddr) (e : CsrRecord) :
    s.applyReadEffect a e = { s with csr := (s.applyReadEffect a e).csr } := by
  unfold State.applyReadEffect
  split <;> rfl

/-- The identity writes nothing. -/
theorem applyReadEffect_identity (a : CsrAddr) (e : CsrRecord) (h : e.onRead = .identity) :
    s.applyReadEffect a e = s := by
  simp [State.applyReadEffect, h]

end Sys2Proof.Machine
end

