-- ==== Sys2Proof/Laws/Bank.lean ====
section
/-! SUPPORT. The CSR bank as a map: a cell read after a write, the cells a write leaves alone, the addresses a write
keeps, and the bank after reset. -/

namespace Sys2Proof.Machine

theorem lookup_bankSet_same (l : List (CsrAddr × Word)) (a : CsrAddr) (v : Word) :
    (bankSet l a v).lookup a = some v := by
  induction l with
  | nil => simp [bankSet]
  | cons x rest ih =>
    obtain ⟨b, w⟩ := x
    by_cases h : b = a
    · simp [bankSet, h]
    · have h' : (a == b) = false := by simpa using Ne.symm h
      simp [bankSet, h, List.lookup_cons, h', ih]

theorem lookup_bankSet_ne (l : List (CsrAddr × Word)) {a b : CsrAddr} (v : Word) (hab : b ≠ a) :
    (bankSet l a v).lookup b = l.lookup b := by
  have hab' : (b == a) = false := by simpa using hab
  induction l with
  | nil => simp [bankSet, List.lookup_cons, hab']
  | cons x rest ih =>
    obtain ⟨k, w⟩ := x
    by_cases h : k = a
    · subst h
      simp [bankSet, List.lookup_cons, hab']
    · simp [bankSet, h, List.lookup_cons, ih]

theorem bankSet_bankSet (l : List (CsrAddr × Word)) (a : CsrAddr) (v w : Word) :
    bankSet (bankSet l a v) a w = bankSet l a w := by
  induction l with
  | nil => simp [bankSet]
  | cons x rest ih =>
    obtain ⟨b, u⟩ := x
    by_cases h : b = a <;> simp [bankSet, h, ih]

/-- A write to a cell the bank has keeps its addresses. -/
theorem keys_bankSet (l : List (CsrAddr × Word)) {a : CsrAddr} (v : Word) (h : a ∈ l.map Prod.fst) :
    (bankSet l a v).map Prod.fst = l.map Prod.fst := by
  induction l with
  | nil => simp at h
  | cons x rest ih =>
    obtain ⟨b, w⟩ := x
    by_cases hb : b = a
    · simp [bankSet, hb]
    · simp only [bankSet, hb, if_false, List.map_cons]
      rw [ih]
      simpa [Ne.symm hb] using h

theorem lookup_resetBank (m : List (CsrAddr × CsrRecord)) (a : CsrAddr) :
    (m.map fun e => (e.1, e.2.resetValue)).lookup a = (m.lookup a).map CsrRecord.resetValue := by
  induction m with
  | nil => simp
  | cons x rest ih =>
    obtain ⟨b, e⟩ := x
    cases h : a == b <;> simp [List.lookup_cons, h, ih]

variable (s : State)

theorem cell_setCsr_same (a : CsrAddr) (v : Word) (e : CsrRecord) : (s.setCsr a v).cell a e = v := by
  simp [State.cell, lookup_bankSet_same]

theorem cell_setCsr_ne {a b : CsrAddr} (v : Word) (e : CsrRecord) (h : b ≠ a) :
    (s.setCsr a v).cell b e = s.cell b e := by
  simp [State.cell, lookup_bankSet_ne _ _ h]

/-- `csr[a]` after a write to a defined `a`. -/
theorem csr?_setCsr_same {a : CsrAddr} (v : Word) {e : CsrRecord} (he : s.config.csr? a = some e) :
    (s.setCsr a v).csr? a = some v := by
  simp [State.csr?, he, cell_setCsr_same]

theorem csr?_setCsr_ne {a b : CsrAddr} (v : Word) (h : b ≠ a) : (s.setCsr a v).csr? b = s.csr? b := by
  simp [State.csr?, cell_setCsr_ne s v _ h]

/-- `csr[a]` depends on the configuration and the bank alone. -/
theorem csr?_congr {s t : State} (hc : t.config = s.config) (hb : t.csr = s.csr) (a : CsrAddr) :
    t.csr? a = s.csr? a := by
  simp [State.csr?, State.cell, hc, hb]

theorem csr?_eq_some {a : CsrAddr} {e : CsrRecord} (he : s.config.csr? a = some e) :
    s.csr? a = some (s.cell a e) := by
  simp [State.csr?, he]

/-- What a gated read does to the cell it reads (R141). -/
theorem csr?_applyReadEffect_same {a : CsrAddr} {e : CsrRecord} (he : s.config.csr? a = some e) :
    (s.applyReadEffect a e).csr? a = some (e.onRead.apply (s.cell a e)) := by
  unfold State.applyReadEffect
  split
  · rename_i h
    simp [h, ReadEffect.apply, csr?_eq_some s he]
  · exact csr?_setCsr_same s _ he

theorem csr?_applyReadEffect_ne {a b : CsrAddr} (e : CsrRecord) (h : b ≠ a) :
    (s.applyReadEffect a e).csr? b = s.csr? b := by
  unfold State.applyReadEffect
  split
  · rfl
  · exact csr?_setCsr_ne s _ h

/-- After a reset every defined CSR holds its reset value (R43, R143). -/
theorem csr?_resetBank {s t : State} (hc : t.config = s.config)
    (hb : t.csr = s.config.csrMap.map fun e => (e.1, e.2.resetValue)) (a : CsrAddr) :
    t.csr? a = (s.config.csr? a).map CsrRecord.resetValue := by
  cases h : s.config.csr? a with
  | none => simp [State.csr?, hc, h]
  | some e =>
    have h' : List.lookup a s.config.csrMap = some e := h
    simp [State.csr?, State.cell, hc, hb, h, lookup_resetBank, h']

end Sys2Proof.Machine
end

