-- ==== Sys2Proof/Laws/Decode.lean ====
section
/-! SUPPORT. A field and its bytes: each is read back from the other. -/

namespace Sys2Proof

theorem toNat_append_add {n m : Nat} (x : BitVec n) (y : BitVec m) :
    (x ++ y).toNat = x.toNat * 2 ^ m + y.toNat := by
  rw [BitVec.toNat_append, ← Nat.shiftLeft_add_eq_or_of_lt y.isLt, Nat.shiftLeft_eq]

theorem toNat_wordOfBytes (b0 b1 b2 b3 : Byte) :
    (wordOfBytes b0 b1 b2 b3).toNat = b3.toNat * 16777216 + b2.toNat * 65536 + b1.toNat * 256 + b0.toNat := by
  have h : (wordOfBytes b0 b1 b2 b3).toNat = ((b3.toNat * 256 + b2.toNat) * 256 + b1.toNat) * 256 + b0.toNat := by
    simp only [wordOfBytes, toNat_append_add, Nat.reducePow]
  rw [h]
  ring

/-- A 32-bit field is read back from its bytes. -/
theorem wordOfBytes_bytes (w : Word) :
    wordOfBytes (w.extractLsb' 0 8) (w.extractLsb' 8 8) (w.extractLsb' 16 8) (w.extractLsb' 24 8) = w := by
  apply BitVec.eq_of_toNat_eq
  have := w.isLt
  rw [toNat_wordOfBytes]
  simp only [BitVec.extractLsb'_toNat, Nat.shiftRight_eq_div_pow]
  omega

/-- Four bytes are the bytes of the field they make. -/
theorem bytes_wordOfBytes (b0 b1 b2 b3 : Byte) : bytesOfWord (wordOfBytes b0 b1 b2 b3) = [b0, b1, b2, b3] := by
  have h0 := b0.isLt
  have h1 := b1.isLt
  have h2 := b2.isLt
  have h3 := b3.isLt
  simp only [bytesOfWord, List.cons.injEq, and_true]
  refine ⟨?_, ?_, ?_, ?_⟩ <;> apply BitVec.eq_of_toNat_eq <;>
    simp only [BitVec.extractLsb'_toNat, toNat_wordOfBytes, Nat.shiftRight_eq_div_pow] <;> omega

theorem toNat_addrOfBytes (b0 b1 : Byte) : (addrOfBytes b0 b1).toNat = b1.toNat * 256 + b0.toNat := by
  simp only [addrOfBytes, toNat_append_add, Nat.reducePow]

/-- A 16-bit field is read back from its bytes. -/
theorem addrOfBytes_bytes (a : CsrAddr) : addrOfBytes (a.extractLsb' 0 8) (a.extractLsb' 8 8) = a := by
  apply BitVec.eq_of_toNat_eq
  have := a.isLt
  rw [toNat_addrOfBytes]
  simp only [BitVec.extractLsb'_toNat, Nat.shiftRight_eq_div_pow]
  omega

/-- Two bytes are the bytes of the field they make. -/
theorem bytes_addrOfBytes (b0 b1 : Byte) : bytesOfAddr (addrOfBytes b0 b1) = [b0, b1] := by
  have h0 := b0.isLt
  have h1 := b1.isLt
  simp only [bytesOfAddr, List.cons.injEq, and_true]
  refine ⟨?_, ?_⟩ <;> apply BitVec.eq_of_toNat_eq <;>
    simp only [BitVec.extractLsb'_toNat, toNat_addrOfBytes, Nat.shiftRight_eq_div_pow] <;> omega

theorem byteOfNat_toNat (b : Byte) : byteOfNat b.toNat = b := by simp [byteOfNat]

/-- An integer field that fits its container is read back from it. -/
theorem toNat_byteOfNat {n : Nat} (h : n < 256) : (byteOfNat n).toNat = n := by
  simp [byteOfNat]; omega

end Sys2Proof
end

