-- ==== Sys2Proof/Laws/Field.lean ====
section
/-! SUPPORT. Bit fields and masks, bit by bit: the field an inclusive range names, its mask, the field's replacement,
and the masked write of a CSR. -/

namespace Sys2Proof.Machine

/-- The field as an integer (R8, R103). -/
theorem toNat_fieldOf (r : Word) {hi lo : Nat} (hl : lo ≤ hi) (hh : hi ≤ 31) :
    (fieldOf r hi lo).toNat = (r.toNat >>> lo) % 2 ^ (hi - lo + 1) := by
  simp only [fieldOf, BitVec.toNat_ofNat, fieldWidth]
  apply Nat.mod_eq_of_lt
  calc (r.toNat >>> lo) % 2 ^ (hi - lo + 1) < 2 ^ (hi - lo + 1) := Nat.mod_lt _ (by positivity)
    _ ≤ 2 ^ 32 := Nat.pow_le_pow_right (by omega) (by omega)

/-- The mask as an integer (R82): no overflow for any legal range, the full width included. -/
theorem toNat_fieldMask {hi lo : Nat} (hl : lo ≤ hi) (hh : hi ≤ 31) :
    (fieldMask hi lo).toNat = (2 ^ (hi - lo + 1) - 1) * 2 ^ lo := by
  simp only [fieldMask, BitVec.toNat_ofNat, fieldWidth, Nat.shiftLeft_eq]
  apply Nat.mod_eq_of_lt
  have h₁ : 0 < 2 ^ lo := by positivity
  have h₂ : 0 < 2 ^ (hi - lo + 1) := by positivity
  calc (2 ^ (hi - lo + 1) - 1) * 2 ^ lo < 2 ^ (hi - lo + 1) * 2 ^ lo :=
        Nat.mul_lt_mul_of_pos_right (by omega) h₁
    _ = 2 ^ (hi - lo + 1 + lo) := by rw [← Nat.pow_add]
    _ ≤ 2 ^ 32 := Nat.pow_le_pow_right (by omega) (by omega)

/-- The mask has ones in bits `hi` to `lo` and zeros elsewhere (R8). -/
theorem getLsbD_fieldMask {hi lo : Nat} (j : Nat) (hl : lo ≤ hi) (hh : hi ≤ 31) :
    (fieldMask hi lo).getLsbD j = decide (lo ≤ j ∧ j ≤ hi) := by
  rw [BitVec.getLsbD, toNat_fieldMask hl hh, ← Nat.shiftLeft_eq, Nat.testBit_shiftLeft,
    Nat.testBit_two_pow_sub_one, Bool.eq_iff_iff]
  simp
  omega

/-- The replacement of a field, bit by bit (R105). -/
theorem getLsbD_withField (r v : Word) {hi lo j : Nat} (hl : lo ≤ hi) (hh : hi ≤ 31) (hj : j < 32) :
    (withField r hi lo v).getLsbD j = if lo ≤ j ∧ j ≤ hi then v.getLsbD (j - lo) else r.getLsbD j := by
  simp only [withField, BitVec.getLsbD_or, BitVec.getLsbD_and, BitVec.getLsbD_not, getLsbD_fieldMask j hl hh,
    BitVec.getLsbD_shiftLeft, hj]
  by_cases c : lo ≤ j ∧ j ≤ hi <;> simp [c]

/-- A masked write keeps the bits outside the mask (R142). -/
theorem maskedWrite_outside (old mask value : Word) :
    maskedWrite old mask value &&& ~~~mask = old &&& ~~~mask := by
  apply BitVec.eq_of_getLsbD_eq
  intro j hj
  simp only [maskedWrite, BitVec.getLsbD_or, BitVec.getLsbD_and, BitVec.getLsbD_not, hj]
  cases old.getLsbD j <;> cases mask.getLsbD j <;> cases value.getLsbD j <;> rfl

/-- A masked write gives the bits inside the mask the value's (R142). -/
theorem maskedWrite_inside (old mask value : Word) :
    maskedWrite old mask value &&& mask = value &&& mask := by
  apply BitVec.eq_of_getLsbD_eq
  intro j hj
  simp only [maskedWrite, BitVec.getLsbD_or, BitVec.getLsbD_and, BitVec.getLsbD_not, hj]
  cases old.getLsbD j <;> cases mask.getLsbD j <;> cases value.getLsbD j <;> rfl

/-- The same masked write again changes nothing. -/
theorem maskedWrite_again (old mask value : Word) :
    maskedWrite (maskedWrite old mask value) mask value = maskedWrite old mask value := by
  apply BitVec.eq_of_getLsbD_eq
  intro j hj
  simp only [maskedWrite, BitVec.getLsbD_or, BitVec.getLsbD_and, BitVec.getLsbD_not, hj]
  cases old.getLsbD j <;> cases mask.getLsbD j <;> cases value.getLsbD j <;> rfl

/-- The increment of the counter as an integer (R174). -/
theorem toNat_count_succ (c : Count) : (c + 1#64).toNat = (c.toNat + 1) % 2 ^ 64 := by
  simp [BitVec.toNat_add]

end Sys2Proof.Machine
end

