-- ==== Sys2Proof/Laws/Ops.lean ====
section
/-! SUPPORT. What each shared operation can do, said once, and the inversion of `exec`: the effects an operation can
have, each with the operations that have it. -/

namespace Sys2Proof.Machine

variable (s : State)

theorem whileRunning_running {s : State} (h : s.aborted = false) (t : State) : s.whileRunning t = t := by
  simp [State.whileRunning, h]

theorem whileRunning_aborted {s : State} (h : s.aborted = true) (t : State) :
    s.whileRunning t = s.abort .blockAborted := by
  simp [State.whileRunning, h]

/-- The abort of a block that has aborted already only answers. -/
theorem abort_of_aborted {s : State} (h : s.aborted = true) (e : ProgrammerError) :
    s.abort e = s.answer (.abort e) := by
  cases s
  cases h
  rfl

/-- A legal range has no error. -/
theorem rangeError_legal {hi lo : Nat} (h : LegalRange hi lo) : rangeError hi lo = none := by
  obtain ⟨h₁, h₂⟩ := h
  unfold rangeError
  rw [if_neg (by omega), if_neg (by omega)]

theorem rangeError_position {hi lo : Nat} (h : 31 < hi ∨ 31 < lo) :
    rangeError hi lo = some .bitPositionOutOfRange := by
  simp [rangeError, h]

theorem rangeError_empty {hi lo : Nat} (h₁ : lo ≤ 31) (h₂ : hi < lo) :
    rangeError hi lo = some .emptyBitRange := by
  unfold rangeError
  rw [if_neg (by omega), if_pos h₂]

/-- A range without error is legal. -/
theorem legalRange_of_rangeError {hi lo : Nat} (h : rangeError hi lo = none) : LegalRange hi lo := by
  unfold rangeError at h
  split at h
  · cases h
  · split at h
    · cases h
    · constructor <;> omega

/-- The privilege operand names a mode exactly when it is legal. -/
theorem modeOfCode_isSome {c : Config} {code : Nat} :
    (∃ m, modeOfCode c code = some m) ↔ LegalPrivilege c code := by
  unfold modeOfCode LegalPrivilege
  split
  · cases c.hasUser <;> simp
  · simp
  · simp
  · simp_all

/-- A mode an operand names exists. -/
theorem modeExists_of_code {c : Config} {code : Nat} {m : PrivMode} (h : modeOfCode c code = some m) :
    modeExists c m = true := by
  unfold modeOfCode at h
  split at h
  · split at h
    · cases h
      assumption
    · cases h
  · cases h
    rfl
  · cases h
    rfl
  · cases h

/-- The gate: an abort, one of the two conditions, or the access (R148, R207). -/
theorem gated_cases (a : CsrAddr) (p : Nat) (k : CsrRecord → State) :
    (¬LegalPrivilege s.config p ∧ s.gated a p k = s.abort .badPrivilegeOperand) ∨
    (∃ m, modeOfCode s.config p = some m ∧
      ((s.config.csr? a = none ∧ s.gated a p k = s.answer (.undefinedCsr a)) ∨
       (∃ e, s.config.csr? a = some e ∧
        ((rank m < rank e.minPrivilege ∧ s.gated a p k = s.answer (.privilegeViolation a m)) ∨
         (rank e.minPrivilege ≤ rank m ∧ s.gated a p k = k e))))) := by
  cases hm : modeOfCode s.config p with
  | none =>
    refine .inl ⟨fun h => ?_, by simp [State.gated, State.withMode, hm]⟩
    obtain ⟨m, h⟩ := modeOfCode_isSome.mpr h
    simp [hm] at h
  | some m =>
    refine .inr ⟨m, rfl, ?_⟩
    cases he : s.config.csr? a with
    | none => exact .inl ⟨rfl, by simp [State.gated, State.withMode, State.withCsr, hm, he]⟩
    | some e =>
      refine .inr ⟨e, rfl, ?_⟩
      by_cases hr : rank m < rank e.minPrivilege
      · exact .inl ⟨hr, by simp [State.gated, State.withMode, State.withCsr, hm, he, hr]⟩
      · exact .inr ⟨by omega, by simp [State.gated, State.withMode, State.withCsr, hm, he, hr]⟩

/-- What an operation can do to the state, with the operations that do it. -/
inductive Effect (s : State) : Instr → State → Prop
  | abort {i} (e : ProgrammerError) : i ≠ .cpuReset → (s.aborted = true ∨ ¬LegalOperands s.config i) →
      Effect s i (s.abort e)
  | undefined {i} (a : CsrAddr) : s.aborted = false → LegalOperands s.config i → s.config.csr? a = none →
      (i = .csrExplicitRead a ∨ i = .cpuCsrExplicitRead a ∨ (∃ p, i = .csrRead a p ∨ i = .cpuCsrRead a p) ∨
        ∃ p v, i = .csrWrite a p v ∨ i = .cpuCsrWrite a p v) →
      Effect s i (s.answer (.undefinedCsr a))
  | violation {i} (a : CsrAddr) (p : Nat) (m : PrivMode) (e : CsrRecord) : s.aborted = false →
      LegalOperands s.config i → modeOfCode s.config p = some m → s.config.csr? a = some e →
      rank m < rank e.minPrivilege →
      (i = .csrRead a p ∨ i = .cpuCsrRead a p ∨ ∃ v, i = .csrWrite a p v ∨ i = .cpuCsrWrite a p v) →
      Effect s i (s.answer (.privilegeViolation a m))
  | value {i} (v : Value) : s.aborted = false → LegalOperands s.config i → i ≠ .cpuReset → Effect s i (s.returns v)
  | slot {i} (n : Fin 32) (v : Word) : s.aborted = false → (i = .rfSet n.val v ∨ i = .cpuSetR n.val v) →
      Effect s i (s.setSlot n v).done
  | pc (v : Word) : s.aborted = false → Effect s (.cpuSetPc v) { s with pc := v }.done
  | count : s.aborted = false → Effect s .cpuIncrementInstCount { s with icount := s.icount + 1#64 }.done
  | readCsr {i} (a : CsrAddr) (p : Nat) (e : CsrRecord) : s.aborted = false → LegalPrivilege s.config p →
      s.config.csr? a = some e → (i = .csrRead a p ∨ i = .cpuCsrRead a p) →
      Effect s i ((s.applyReadEffect a e).returns (.word (s.cell a e)))
  | writeCsr {i} (a : CsrAddr) (p : Nat) (v : Word) (e : CsrRecord) : s.aborted = false →
      LegalPrivilege s.config p → s.config.csr? a = some e → (i = .csrWrite a p v ∨ i = .cpuCsrWrite a p v) →
      Effect s i (s.setCsr a (maskedWrite (s.cell a e) e.writeMask v)).done
  | bankReset {i} : s.aborted = false → (i = .csrReset ∨ i = .cpuCsrReset) → Effect s i (opCsrReset s)
  | priv {i} (code : Nat) (m : PrivMode) : s.aborted = false → modeOfCode s.config code = some m →
      (i = .csrSetPriv code ∨ i = .cpuSetPriv code) → Effect s i { s with priv := m }.done
  | reset : Effect s .cpuReset s.resetBlock.done

theorem effect_get {i : Instr} (n : Nat) (hs : s.aborted = false) (hi : i = .rfGet n ∨ i = .cpuGetR n) :
    Effect s i (opGet s n) := by
  unfold opGet
  split
  · rename_i h
    refine .value _ hs ?_ ?_ <;> rcases hi with rfl | rfl <;> simp [LegalOperands] <;> omega
  · refine .abort _ ?_ (.inr ?_) <;> rcases hi with rfl | rfl <;> simp [LegalOperands] <;> omega

theorem effect_set {i : Instr} (n : Nat) (v : Word) (hs : s.aborted = false)
    (hi : i = .rfSet n v ∨ i = .cpuSetR n v) : Effect s i (opSet s n v) := by
  unfold opSet
  split
  · exact .slot ⟨n, _⟩ v hs hi
  · refine .abort _ ?_ (.inr ?_) <;> rcases hi with rfl | rfl <;> simp [LegalOperands] <;> omega

theorem effect_explicitRead {i : Instr} (a : CsrAddr) (hs : s.aborted = false)
    (hi : i = .csrExplicitRead a ∨ i = .cpuCsrExplicitRead a) : Effect s i (opExplicitRead s a) := by
  unfold opExplicitRead State.withCsr
  cases he : s.config.csr? a with
  | none => refine .undefined a hs ?_ he ?_ <;> rcases hi with rfl | rfl <;> simp [LegalOperands]
  | some e => refine .value _ hs ?_ ?_ <;> rcases hi with rfl | rfl <;> simp [LegalOperands]

theorem effect_read {i : Instr} (a : CsrAddr) (p : Nat) (hs : s.aborted = false)
    (hi : i = .csrRead a p ∨ i = .cpuCsrRead a p) : Effect s i (opCsrRead s a p) := by
  have hl : LegalPrivilege s.config p → LegalOperands s.config i := by
    rcases hi with rfl | rfl <;> exact id
  have hl' : ¬LegalPrivilege s.config p → ¬LegalOperands s.config i := by
    rcases hi with rfl | rfl <;> exact id
  have hr : i ≠ .cpuReset := by rcases hi with rfl | rfl <;> simp
  unfold opCsrRead
  rcases gated_cases s a p (fun e => (s.applyReadEffect a e).returns (.word (s.cell a e))) with
    ⟨hp, h⟩ | ⟨m, hm, ⟨he, h⟩ | ⟨e, he, ⟨hk, h⟩ | ⟨-, h⟩⟩⟩ <;> rw [h]
  · exact .abort _ hr (.inr (hl' hp))
  · exact .undefined a hs (hl (modeOfCode_isSome.mp ⟨m, hm⟩)) he (.inr (.inr (.inl ⟨p, hi⟩)))
  · exact .violation a p m e hs (hl (modeOfCode_isSome.mp ⟨m, hm⟩)) hm he hk (hi.imp id .inl)
  · exact .readCsr a p e hs (modeOfCode_isSome.mp ⟨m, hm⟩) he hi

theorem effect_write {i : Instr} (a : CsrAddr) (p : Nat) (v : Word) (hs : s.aborted = false)
    (hi : i = .csrWrite a p v ∨ i = .cpuCsrWrite a p v) : Effect s i (opCsrWrite s a p v) := by
  have hl : LegalPrivilege s.config p → LegalOperands s.config i := by
    rcases hi with rfl | rfl <;> exact id
  have hl' : ¬LegalPrivilege s.config p → ¬LegalOperands s.config i := by
    rcases hi with rfl | rfl <;> exact id
  have hr : i ≠ .cpuReset := by rcases hi with rfl | rfl <;> simp
  unfold opCsrWrite
  rcases gated_cases s a p (fun e => (s.setCsr a (maskedWrite (s.cell a e) e.writeMask v)).done) with
    ⟨hp, h⟩ | ⟨m, hm, ⟨he, h⟩ | ⟨e, he, ⟨hk, h⟩ | ⟨-, h⟩⟩⟩ <;> rw [h]
  · exact .abort _ hr (.inr (hl' hp))
  · exact .undefined a hs (hl (modeOfCode_isSome.mp ⟨m, hm⟩)) he (.inr (.inr (.inr ⟨p, v, hi⟩)))
  · exact .violation a p m e hs (hl (modeOfCode_isSome.mp ⟨m, hm⟩)) hm he hk (.inr (.inr ⟨v, hi⟩))
  · exact .writeCsr a p v e hs (modeOfCode_isSome.mp ⟨m, hm⟩) he hi

theorem effect_setPriv {i : Instr} (code : Nat) (hs : s.aborted = false)
    (hi : i = .csrSetPriv code ∨ i = .cpuSetPriv code) : Effect s i (opSetPriv s code) := by
  unfold opSetPriv State.withMode
  cases hm : modeOfCode s.config code with
  | none =>
    refine .abort _ (by rcases hi with rfl | rfl <;> simp) (.inr fun h => ?_)
    have hp : LegalPrivilege s.config code := by rcases hi with rfl | rfl <;> exact h
    obtain ⟨m, h'⟩ := modeOfCode_isSome.mpr hp
    simp [hm] at h'
  | some m => exact .priv code m hs hm hi

theorem effect_bit (r : Word) (n : Nat) (hs : s.aborted = false) : Effect s (.regBit r n) (opBit s r n) := by
  unfold opBit
  split
  · exact .abort _ (by simp) (.inr (by simp only [LegalOperands]; omega))
  · exact .value _ hs (by simp only [LegalOperands]; omega) (by simp)

theorem effect_bits (r : Word) (hi lo : Nat) (hs : s.aborted = false) :
    Effect s (.regBits r hi lo) (opBits s r hi lo) := by
  unfold opBits
  cases h : rangeError hi lo with
  | none => exact .value _ hs (legalRange_of_rangeError h) (by simp)
  | some e =>
    refine .abort e (by simp) (.inr fun hl => ?_)
    rw [rangeError_legal hl] at h
    cases h

theorem effect_writeBits (r : Word) (hi lo : Nat) (v : Word) (hs : s.aborted = false) :
    Effect s (.regWriteBits r hi lo v) (opWriteBits s r hi lo v) := by
  unfold opWriteBits
  cases h : rangeError hi lo with
  | none =>
    dsimp only
    split
    · rename_i hf
      refine .abort _ (by simp) (.inr fun hl => ?_)
      have := hl.2
      simp only [fieldWidth] at hf
      omega
    · rename_i hf
      exact .value _ hs ⟨legalRange_of_rangeError h, by simp only [fieldWidth] at hf; omega⟩ (by simp)
  | some e =>
    refine .abort e (by simp) (.inr fun hl => ?_)
    rw [rangeError_legal hl.1] at h
    cases h

/-- The operation of `i` where the block has not aborted. -/
theorem exec_running (i : Instr) (hs : s.aborted = false) : ∃ t, exec i s = .next t ∧ Effect s i t := by
  have hw := fun t => whileRunning_running hs t
  cases i <;> refine ⟨_, rfl, ?_⟩ <;> try rw [hw]
  case regRead r => exact .value _ hs trivial (by simp)
  case regAsSigned r => exact .value _ hs trivial (by simp)
  case regBit r n => exact effect_bit s r n hs
  case regBits r hi lo => exact effect_bits s r hi lo hs
  case regWrite r v => exact .value _ hs trivial (by simp)
  case regWriteBits r hi lo v => exact effect_writeBits s r hi lo v hs
  case rfGet n => exact effect_get s n hs (.inl rfl)
  case rfSet n v => exact effect_set s n v hs (.inl rfl)
  case csrExplicitRead a => exact effect_explicitRead s a hs (.inl rfl)
  case csrRead a p => exact effect_read s a p hs (.inl rfl)
  case csrWrite a p v => exact effect_write s a p v hs (.inl rfl)
  case csrReset => exact .bankReset hs (.inl rfl)
  case csrGetPriv => exact .value _ hs trivial (by simp)
  case csrSetPriv m => exact effect_setPriv s m hs (.inl rfl)
  case cpuReset => exact .reset
  case cpuGetPc => exact .value _ hs trivial (by simp)
  case cpuSetPc v => exact .pc v hs
  case cpuGetInstCount => exact .value _ hs trivial (by simp)
  case cpuIncrementInstCount => exact .count hs
  case cpuGetR n => exact effect_get s n hs (.inr rfl)
  case cpuSetR n v => exact effect_set s n v hs (.inr rfl)
  case cpuCsrExplicitRead a => exact effect_explicitRead s a hs (.inr rfl)
  case cpuCsrRead a p => exact effect_read s a p hs (.inr rfl)
  case cpuCsrWrite a p v => exact effect_write s a p v hs (.inr rfl)
  case cpuCsrReset => exact .bankReset hs (.inr rfl)
  case cpuGetPriv => exact .value _ hs trivial (by simp)
  case cpuSetPriv m => exact effect_setPriv s m hs (.inr rfl)

/-- Every operation answers, with one of the effects. -/
theorem exec_effect (i : Instr) : ∃ t, exec i s = .next t ∧ Effect s i t := by
  cases hs : s.aborted with
  | false => exact exec_running s i hs
  | true =>
    by_cases hr : i = .cpuReset
    · subst hr
      exact ⟨_, rfl, .reset⟩
    · refine ⟨s.abort .blockAborted, ?_, .abort _ hr (.inl hs)⟩
      cases i <;> first
        | exact absurd rfl hr
        | exact congrArg Host.Outcome.next (whileRunning_aborted hs _)

/-- The inversion of `exec`: a next state comes from one of the effects. -/
theorem effect_of_exec {s t : State} {i : Instr} (h : exec i s = .next t) : Effect s i t := by
  obtain ⟨u, hu, he⟩ := exec_effect s i
  rw [h] at hu
  cases hu
  exact he

/-- The inversion of `step`: idle, an operation, or the abort of an unassigned op code. -/
theorem step_cases {s t : State} (h : step s = .next t) :
    (s.requests = [] ∧ t = s) ∨
    ∃ frame rest, s.requests = frame :: rest ∧
      ((∃ i, decode frame = .ok i ∧ exec i { s with requests := rest } = .next t) ∨
       (∃ op, decode frame = .error (.unassignedOpcode op) ∧
        t = answerUnassigned { s with requests := rest })) := by
  unfold step runNextRequest takeRequest at h
  cases hq : s.requests with
  | nil =>
    simp only [hq] at h
    cases h
    exact .inl ⟨rfl, rfl⟩
  | cons frame rest =>
    refine .inr ⟨frame, rest, rfl, ?_⟩
    simp only [hq] at h
    unfold runDecoded at h
    split at h
    · rename_i i hd
      exact .inl ⟨i, hd, h⟩
    · rename_i op hd
      cases h
      exact .inr ⟨op, hd, rfl⟩
    · cases h
    · cases h

end Sys2Proof.Machine
end

