-- ==== Sys2Proof/Laws/PerInstr.lean ====
section
/-! SUPPORT. Statements about every operation as syntax, one lemma per constructor. -/

namespace Sys2Proof.Laws.FrameFitsFormat

/-- The frame of an operation is an op code the map lists and as many operand bytes as its format has (R72, R73). -/
def Statement (i : Instr) : Prop :=
  ∃ op operands f, encode i = op :: operands ∧ formatOfOpcode op.toNat = some f ∧
    operands.length = f.operandBytes

theorem regRead (r : Word) : Statement (.regRead r) := ⟨_, _, _, rfl, rfl, rfl⟩
theorem regAsSigned (r : Word) : Statement (.regAsSigned r) := ⟨_, _, _, rfl, rfl, rfl⟩
theorem regBit (r : Word) (i : Nat) : Statement (.regBit r i) := ⟨_, _, _, rfl, rfl, rfl⟩
theorem regBits (r : Word) (hi : Nat) (lo : Nat) : Statement (.regBits r hi lo) := ⟨_, _, _, rfl, rfl, rfl⟩
theorem regWrite (r : Word) (value : Word) : Statement (.regWrite r value) := ⟨_, _, _, rfl, rfl, rfl⟩
theorem regWriteBits (r : Word) (hi : Nat) (lo : Nat) (value : Word) : Statement (.regWriteBits r hi lo value) := ⟨_, _, _, rfl, rfl, rfl⟩
theorem rfGet (index : Nat) : Statement (.rfGet index) := ⟨_, _, _, rfl, rfl, rfl⟩
theorem rfSet (index : Nat) (value : Word) : Statement (.rfSet index value) := ⟨_, _, _, rfl, rfl, rfl⟩
theorem csrExplicitRead (a : CsrAddr) : Statement (.csrExplicitRead a) := ⟨_, _, _, rfl, rfl, rfl⟩
theorem csrRead (a : CsrAddr) (p : Nat) : Statement (.csrRead a p) := ⟨_, _, _, rfl, rfl, rfl⟩
theorem csrWrite (a : CsrAddr) (p : Nat) (value : Word) : Statement (.csrWrite a p value) := ⟨_, _, _, rfl, rfl, rfl⟩
theorem csrReset : Statement (.csrReset) := ⟨_, _, _, rfl, rfl, rfl⟩
theorem csrGetPriv : Statement (.csrGetPriv) := ⟨_, _, _, rfl, rfl, rfl⟩
theorem csrSetPriv (m : Nat) : Statement (.csrSetPriv m) := ⟨_, _, _, rfl, rfl, rfl⟩
theorem cpuReset : Statement (.cpuReset) := ⟨_, _, _, rfl, rfl, rfl⟩
theorem cpuGetPc : Statement (.cpuGetPc) := ⟨_, _, _, rfl, rfl, rfl⟩
theorem cpuSetPc (value : Word) : Statement (.cpuSetPc value) := ⟨_, _, _, rfl, rfl, rfl⟩
theorem cpuGetInstCount : Statement (.cpuGetInstCount) := ⟨_, _, _, rfl, rfl, rfl⟩
theorem cpuIncrementInstCount : Statement (.cpuIncrementInstCount) := ⟨_, _, _, rfl, rfl, rfl⟩
theorem cpuGetR (index : Nat) : Statement (.cpuGetR index) := ⟨_, _, _, rfl, rfl, rfl⟩
theorem cpuSetR (index : Nat) (value : Word) : Statement (.cpuSetR index value) := ⟨_, _, _, rfl, rfl, rfl⟩
theorem cpuCsrExplicitRead (a : CsrAddr) : Statement (.cpuCsrExplicitRead a) := ⟨_, _, _, rfl, rfl, rfl⟩
theorem cpuCsrRead (a : CsrAddr) (p : Nat) : Statement (.cpuCsrRead a p) := ⟨_, _, _, rfl, rfl, rfl⟩
theorem cpuCsrWrite (a : CsrAddr) (p : Nat) (value : Word) : Statement (.cpuCsrWrite a p value) := ⟨_, _, _, rfl, rfl, rfl⟩
theorem cpuCsrReset : Statement (.cpuCsrReset) := ⟨_, _, _, rfl, rfl, rfl⟩
theorem cpuGetPriv : Statement (.cpuGetPriv) := ⟨_, _, _, rfl, rfl, rfl⟩
theorem cpuSetPriv (m : Nat) : Statement (.cpuSetPriv m) := ⟨_, _, _, rfl, rfl, rfl⟩

end Sys2Proof.Laws.FrameFitsFormat
end

