-- ==== Sys2Proof/Tests/Slice0.lean ====
section
/-! SUPPORT. Tests. Expected results are those of 95_test_vectors.md (B, F, K, P, X name its vectors) unless a comment
says otherwise; the states are built on its fixture FIX1 (section 2.1), which is no part of the model. -/

namespace Sys2Proof.Tests

open Sys2Proof.Machine

-- The fixture FIX1

def csrRec (reset mask : Word) (p : PrivMode) (e : ReadEffect) : CsrRecord :=
  { resetValue := reset, writeMask := mask, minPrivilege := p, onRead := e }

def fix1 : Config :=
  { hasUser := true
    mstatus := 0x300#16
    misa := 0x301#16
    mstatush := 0x310#16
    mcause := 0x342#16
    pmpcfgStart := 0x3A0#16
    pmpcfgEnd := 0x3AF#16
    csrMap :=
      [(0x140#16, csrRec 0xA5A50000#32 0x0000FFFF#32 .supervisor .identity),
        (0x300#16, csrRec 0#32 0x0000FFFF#32 .machine .identity),
        (0x301#16, csrRec 0#32 0#32 .machine .identity),
        (0x310#16, csrRec 0#32 0x00000030#32 .machine .identity),
        (0x342#16, csrRec 0#32 0xFFFFFFFF#32 .machine .identity)]
      ++ (List.range 16).map (fun k => (BitVec.ofNat 16 (0x3A0 + k), csrRec 0#32 0xFFFFFFFF#32 .machine .identity))
      ++ [(0x7C0#16, csrRec 0x000000F0#32 0x000000FF#32 .machine (.clearBits 0x000000F0#32)),
        (0xC00#16, csrRec 0x00000007#32 0#32 .user .identity)]
    xreset := Vector.replicate 31 0x5EED5EED#32 }

/-- The state after reset under FIX1. -/
def fix : State := State.afterReset fix1

/-- FIX1 without User mode (K29), its User-level CSR left in place: no test reads it. -/
def fixNoUser : State := State.afterReset { fix1 with hasUser := false }

/-- The state after reset under FIX1, aborted (X3). -/
def fixAborted : State := { fix with aborted := true, responses := [.abort .registerIndexOutOfRange] }

def answer (i : Instr) (s : State) : Option Response := answerOf (exec i s)

/-- What `f` gives of the state `i` leaves. -/
def after {α : Type} (i : Instr) (s : State) (f : State → α) : Option α :=
  match exec i s with
  | .next t => some (f t)
  | _ => none

def word (v : Word) : Option Response := some (.ok (some (.word v)))

-- WellFormed refuses an operand that does not fit its container, in each place there is one

theorem test_wf_bit_position : (Instr.regBit 0#32 256).wellFormed = false := by decide
theorem test_wf_bits_hi : (Instr.regBits 0#32 256 0).wellFormed = false := by decide
theorem test_wf_bits_lo : (Instr.regBits 0#32 0 256).wellFormed = false := by decide
theorem test_wf_write_bits_hi : (Instr.regWriteBits 0#32 256 0 0#32).wellFormed = false := by decide
theorem test_wf_write_bits_lo : (Instr.regWriteBits 0#32 0 256 0#32).wellFormed = false := by decide
theorem test_wf_rf_get : (Instr.rfGet 256).wellFormed = false := by decide
theorem test_wf_rf_set : (Instr.rfSet 256 0#32).wellFormed = false := by decide
theorem test_wf_csr_read : (Instr.csrRead 0#16 256).wellFormed = false := by decide
theorem test_wf_csr_write : (Instr.csrWrite 0#16 256 0#32).wellFormed = false := by decide
theorem test_wf_csr_set_priv : (Instr.csrSetPriv 256).wellFormed = false := by decide
theorem test_wf_cpu_get_r : (Instr.cpuGetR 256).wellFormed = false := by decide
theorem test_wf_cpu_set_r : (Instr.cpuSetR 256 0#32).wellFormed = false := by decide
theorem test_wf_cpu_csr_read : (Instr.cpuCsrRead 0#16 256).wellFormed = false := by decide
theorem test_wf_cpu_csr_write : (Instr.cpuCsrWrite 0#16 256 0#32).wellFormed = false := by decide
theorem test_wf_cpu_set_priv : (Instr.cpuSetPriv 256).wellFormed = false := by decide
theorem test_wf_illegal_index_is_carried : (Instr.rfGet 255).wellFormed = true := by decide

-- Decoding: op codes of R72, operands in the order of R73; the bytes of a field in the model's order (log 5)

theorem test_decode_reg_read : decode [0x00, 0x32, 0x54, 0x76, 0x98] = .ok (.regRead 0x98765432#32) := by decide
theorem test_decode_reg_as_signed : decode [0x01, 0x85, 0xFF, 0xFF, 0xFF] = .ok (.regAsSigned 0xFFFFFF85#32) := by decide
theorem test_decode_reg_bit : decode [0x02, 0xEF, 0xBE, 0xAD, 0xDE, 0x1F] = .ok (.regBit 0xDEADBEEF#32 31) := by decide
theorem test_decode_reg_bits : decode [0x03, 0xEF, 0xBE, 0xAD, 0xDE, 0x13, 0x04] = .ok (.regBits 0xDEADBEEF#32 19 4) := by decide
theorem test_decode_reg_write : decode [0x04, 0x78, 0x56, 0x34, 0x12, 0x0D, 0xF0, 0xFE, 0xCA] = .ok (.regWrite 0x12345678#32 0xCAFEF00D#32) := by decide
theorem test_decode_reg_write_bits : decode [0x05, 0x78, 0x56, 0x34, 0x12, 0x0F, 0x08, 0xAB, 0x00, 0x00, 0x00] = .ok (.regWriteBits 0x12345678#32 15 8 0x000000AB#32) := by decide
theorem test_decode_rf_get : decode [0x10, 0x07] = .ok (.rfGet 7) := by decide
theorem test_decode_rf_set : decode [0x11, 0x1F, 0xFF, 0xFF, 0xFF, 0xFF] = .ok (.rfSet 31 0xFFFFFFFF#32) := by decide
theorem test_decode_csr_explicit_read : decode [0x20, 0xC0, 0x07] = .ok (.csrExplicitRead 0x07C0#16) := by decide
theorem test_decode_csr_read : decode [0x21, 0x40, 0x01, 0x01] = .ok (.csrRead 0x0140#16 1) := by decide
theorem test_decode_csr_write : decode [0x22, 0xC0, 0x07, 0x03, 0x0F, 0x01, 0x00, 0x00] = .ok (.csrWrite 0x07C0#16 3 0x0000010F#32) := by decide
theorem test_decode_csr_reset : decode [0x23] = .ok .csrReset := by decide
theorem test_decode_csr_get_priv : decode [0x24] = .ok .csrGetPriv := by decide
theorem test_decode_csr_set_priv : decode [0x25, 0x00] = .ok (.csrSetPriv 0) := by decide
theorem test_decode_cpu_reset : decode [0x30] = .ok .cpuReset := by decide
theorem test_decode_cpu_get_pc : decode [0x31] = .ok .cpuGetPc := by decide
theorem test_decode_cpu_set_pc : decode [0x32, 0x0C, 0x00, 0x00, 0x00] = .ok (.cpuSetPc 0x0000000C#32) := by decide
theorem test_decode_cpu_get_inst_count : decode [0x33] = .ok .cpuGetInstCount := by decide
theorem test_decode_cpu_increment_inst_count : decode [0x34] = .ok .cpuIncrementInstCount := by decide
theorem test_decode_cpu_get_r : decode [0x35, 0x05] = .ok (.cpuGetR 5) := by decide
theorem test_decode_cpu_set_r : decode [0x36, 0x20, 0x99, 0x00, 0x00, 0x00] = .ok (.cpuSetR 32 0x00000099#32) := by decide
theorem test_decode_cpu_csr_explicit_read : decode [0x38, 0x00, 0x03] = .ok (.cpuCsrExplicitRead 0x0300#16) := by decide
theorem test_decode_cpu_csr_read : decode [0x39, 0x41, 0x01, 0x01] = .ok (.cpuCsrRead 0x0141#16 1) := by decide
theorem test_decode_cpu_csr_write : decode [0x3A, 0x42, 0x03, 0x03, 0x02, 0x00, 0x00, 0x00] = .ok (.cpuCsrWrite 0x0342#16 3 0x00000002#32) := by decide
theorem test_decode_cpu_csr_reset : decode [0x3B] = .ok .cpuCsrReset := by decide
theorem test_decode_cpu_get_priv : decode [0x3C] = .ok .cpuGetPriv := by decide
theorem test_decode_cpu_set_priv : decode [0x3D, 0x03] = .ok (.cpuSetPriv 3) := by decide

-- What is no request: R78 (X7), and a field a format does not list (R71)

theorem test_decode_unassigned : decode [0x37] = .error (.unassignedOpcode 0x37) := by decide
theorem test_decode_extra_field : decode [0x31, 0x00] = .error (.wrongLength 0x31) := by decide
theorem test_decode_missing_field : decode [0x32, 0x00] = .error (.wrongLength 0x32) := by decide
theorem test_decode_empty : decode [] = .error .emptyFrame := by decide

-- The opcode table's words

theorem test_table_word_op_only : decodeTableWord 8 0x05 = some (.regWriteBits 0#32 0 0 0#32) := by decide
theorem test_table_word_operand_bits : decodeTableWord 16 0x1F10 = some (.rfGet 31) := by decide

-- REG

/-- B1 -/
theorem test_reg_read : answer (.regRead 0x98765432#32) fix = word 0x98765432#32 := by decide
/-- B2 -/
theorem test_as_signed_negative : (valueOf (exec (.regAsSigned 0x98765432#32) fix)).map Value.number = some (-1737075662) := by decide
/-- B6 -/
theorem test_as_signed_minus_123 : (valueOf (exec (.regAsSigned 0xFFFFFF85#32) fix)).map Value.number = some (-123) := by decide
/-- B10 -/
theorem test_bit_top_position : answer (.regBit 0xDEADBEEF#32 31) fix = some (.ok (some (.bit true))) := by decide
/-- B11 -/
theorem test_bit_first_illegal_position : answer (.regBit 0xDEADBEEF#32 32) fix = some (.abort .bitPositionOutOfRange) := by decide
/-- B12 -/
theorem test_bits_middle_field : answer (.regBits 0xDEADBEEF#32 19 4) fix = some (.ok (some (.field 16 0x0000DBEE#32))) := by decide
/-- B16 -/
theorem test_bits_full_width : answer (.regBits 0xDEADBEEF#32 31 0) fix = some (.ok (some (.field 32 0xDEADBEEF#32))) := by decide
/-- B20 -/
theorem test_reg_write : answer (.regWrite 0x12345678#32 0xCAFEF00D#32) fix = word 0xCAFEF00D#32 := by decide
/-- B27 -/
theorem test_write_bits_largest_fit : answer (.regWriteBits 0xDEADBEEF#32 19 4 0xFFFF#32) fix = word 0xDEAFFFFF#32 := by decide
/-- B28 -/
theorem test_write_bits_smallest_misfit : answer (.regWriteBits 0xDEADBEEF#32 19 4 0x10000#32) fix = some (.abort .valueDoesNotFit) := by decide

-- RF

/-- F10 -/
theorem test_get_after_reset_is_xreset : answer (.rfGet 7) fix = word 0x5EED5EED#32 := by decide
/-- F7 -/
theorem test_get_first_illegal_index_changes_no_slot : after (.rfGet 32) fix (fun t => (t.aborted, t.xs)) = some (true, fix.xs) := by decide
/-- F11 -/
theorem test_set_slot_zero_discarded : after (.rfSet 0 5#32) fix (fun t => (t.slot 0, t.slot 1)) = some (0#32, 0x5EED5EED#32) := by decide
/-- F4 -/
theorem test_set_highest_slot : after (.rfSet 31 0xFFFFFFFF#32) fix (fun t => (t.slot 31, t.slot 30)) =
    some (0xFFFFFFFF#32, 0x5EED5EED#32) := by decide

-- CSR

/-- K2 -/
theorem test_explicit_read_nonzero_reset : answer (.csrExplicitRead 0x0140#16) fix = word 0xA5A50000#32 := by decide
/-- K4 -/
theorem test_explicit_read_upper_address_bits_count : answer (.csrExplicitRead 0x8300#16) fix = some (.undefinedCsr 0x8300#16) := by decide
/-- K22 -/
theorem test_gated_read_value_before_side_effect : after (.csrRead 0x07C0#16 3) fix (fun t => (t.responses.head?, t.csr? 0x07C0#16)) =
    some (word 0x000000F0#32, some 0x00000000#32) := by decide
/-- K7 -/
theorem test_gated_read_user_below_supervisor : answer (.csrRead 0x0140#16 0) fix = some (.privilegeViolation 0x0140#16 .user) := by decide
/-- K12 -/
theorem test_write_masked_zeros : after (.csrWrite 0x0300#16 3 0x12340008#32) (fix.setCsr 0x0300#16 0x0000FFFF#32)
    (fun t => t.csr? 0x0300#16) = some (some 0x00000008#32) := by decide
/-- K24 -/
theorem test_write_runs_no_read_effect : after (.csrWrite 0x07C0#16 3 0x0000010F#32) fix (fun t => t.csr? 0x07C0#16) =
    some (some 0x0000000F#32) := by decide
/-- K30 -/
theorem test_csr_reset_restores_cell_and_mode : after .csrReset { fix.setCsr 0x0342#16 0xB#32 with priv := .user }
    (fun t => (t.csr? 0x0342#16, t.priv)) = some (some 0#32, .machine) := by decide
/-- K31 -/
theorem test_csr_reset_leaves_cpu_state : after .csrReset { fix.setSlot 3 0x55#32 with pc := 0x40#32, icount := 1#64 }
    (fun t => (t.slot 3, t.pc, t.icount)) = some (0x55#32, 0x40#32, 1#64) := by decide
/-- K25 -/
theorem test_get_priv_after_reset : answer .csrGetPriv fix = some (.ok (some (.mode .machine))) := by decide
/-- K28 -/
theorem test_set_priv_reserved_code : after (.csrSetPriv 0b10) fix (fun t => (t.aborted, t.priv)) = some (true, .machine) := by decide
/-- K29 -/
theorem test_set_priv_user_absent : answer (.csrSetPriv 0) fixNoUser = some (.abort .badPrivilegeOperand) := by decide

-- CPU

/-- P16 -/
theorem test_cpu_reset : after .cpuReset { fix.setSlot 9 0xAAAAAAAA#32 with pc := 0x80#32, icount := 1#64, priv := .supervisor }
    (fun t => (t.pc, t.icount, t.priv, t.slot 9)) = some (0#32, 0#64, .machine, 0x5EED5EED#32) := by decide
/-- X4 -/
theorem test_cpu_reset_ends_abort : after .cpuReset fixAborted (fun t => (t.aborted, t.responses.head?)) =
    some (false, some (.ok none)) := by decide
theorem test_get_pc : answer .cpuGetPc { fix with pc := 0xABCD1234#32 } = word 0xABCD1234#32 := by decide
/-- P3 -/
theorem test_set_pc_odd : after (.cpuSetPc 0x00000001#32) fix State.pc = some 0x00000001#32 := by decide
/-- P1 -/
theorem test_count_after_reset : answer .cpuGetInstCount fix = some (.ok (some (.count 0#64))) := by decide
/-- P7 -/
theorem test_count_past_32_bits : after .cpuIncrementInstCount { fix with icount := 0x00000000FFFFFFFF#64 } State.icount =
    some 0x0000000100000000#64 := by decide
/-- P8 -/
theorem test_count_wraps : after .cpuIncrementInstCount { fix with icount := 0xFFFFFFFFFFFFFFFF#64 } State.icount =
    some 0#64 := by decide
/-- P12 -/
theorem test_get_r_illegal_index : answer (.cpuGetR 32) fix = some (.abort .registerIndexOutOfRange) := by decide
theorem test_get_r : answer (.cpuGetR 1) (fix.setSlot 1 0x98765432#32) = word 0x98765432#32 := by decide
/-- X5 -/
theorem test_set_r_illegal_index_changes_no_slot : after (.cpuSetR 40 0x99#32) (fix.setSlot 4 0x44#32) (fun t => (t.slot 4, t.slot 8, t.aborted)) =
    some (0x44#32, 0x5EED5EED#32, true) := by decide
theorem test_set_r : after (.cpuSetR 1 0x98765432#32) fix (fun t => (t.slot 1, t.slot 2)) =
    some (0x98765432#32, 0x5EED5EED#32) := by decide
/-- P13 -/
theorem test_csr_explicit_read_mstatus : answer (.cpuCsrExplicitRead 0x0300#16) fix = word 0#32 := by decide
/-- X3 -/
theorem test_aborted_block_aborts : answer .cpuGetPc fixAborted = some (.abort .blockAborted) := by decide
/-- X2 -/
theorem test_csr_read_undefined : answer (.cpuCsrRead 0x0141#16 3) fix = some (.undefinedCsr 0x0141#16) := by decide
/-- K26 -/
theorem test_csr_read_gates_on_operand : answer (.cpuCsrRead 0x0300#16 3) { fix with priv := .user } = word 0#32 := by decide
/-- P14 -/
theorem test_csr_write_below_level_changes_nothing : after (.cpuCsrWrite 0x0342#16 1 1#32) fix (fun t => (t.responses.head?, t.csr? 0x0342#16)) =
    some (some (.privilegeViolation 0x0342#16 .supervisor), some 0#32) := by decide
/-- X8 -/
theorem test_csr_write_operand_before_definedness : answer (.cpuCsrWrite 0x0141#16 0b10 0#32) fix = some (.abort .badPrivilegeOperand) := by decide
theorem test_cpu_csr_reset : after .cpuCsrReset { fix with priv := .user } State.priv = some .machine := by decide
/-- P15 -/
theorem test_get_priv_user : answer .cpuGetPriv { fix with priv := .user } = some (.ok (some (.mode .user))) := by decide
/-- K27 -/
theorem test_set_priv_up : after (.cpuSetPriv 3) { fix with priv := .supervisor } State.priv = some .machine := by decide

-- The step

theorem test_step_runs_the_request : step (fix.present [0x31]) =
    .next { fix with responses := [.ok (some (.word 0#32))] } := by rfl
/-- X7 -/
theorem test_step_unassigned_opcode : step (fix.present [0x37]) =
    .next { fix with aborted := true, responses := [.abort .unassignedOpcode] } := by rfl
theorem test_step_after_reset : (match step (State.reset.withFetchWord 8 0x34) with
    | .next t => some (t.icount, t.requests)
    | _ => none) = some (1#64, []) := by rfl

-- The fixture is a configuration of this hardware (R38)

theorem fix1_range (a : CsrAddr) (h₁ : 0x3A0#16 ≤ a) (h₂ : a ≤ 0x3AF#16) :
    fix1.csr? a = some (csrRec 0#32 0xFFFFFFFF#32 .machine .identity) := by
  have h₁' : 928 ≤ a.toNat := by simpa [BitVec.le_def] using h₁
  have h₂' : a.toNat ≤ 943 := by simpa [BitVec.le_def] using h₂
  obtain ⟨n, hn⟩ : ∃ n, a.toNat = n := ⟨_, rfl⟩
  have ha : a = BitVec.ofNat 16 n := by rw [← hn]; simp
  rw [hn] at h₁' h₂'
  subst ha
  clear hn h₁ h₂
  interval_cases n <;> decide

/-- The read effect of `FIXP` keeps the bits outside its mask. -/
theorem fixp_keeps (v : Word) : (v &&& ~~~0xF0#32) &&& ~~~0xFF#32 = v &&& ~~~0xFF#32 := by
  rw [BitVec.and_assoc]
  congr 1

theorem fix1_wellFormed : fix1.WellFormed := by
  refine ⟨by decide, by decide, ?_, ⟨by decide, by decide⟩, ⟨by decide, by decide⟩, ⟨by decide, by decide⟩,
    ⟨by decide, by decide⟩, by decide, fun a h₁ h₂ => ⟨by rw [fix1_range a h₁ h₂]; rfl, fun e he hea => ?_⟩⟩
  · have h : ∀ e ∈ fix1.csrMap, e.2.onRead = .identity ∨
        e.2 = csrRec 0x000000F0#32 0x000000FF#32 .machine (.clearBits 0x000000F0#32) := by decide
    intro e he v
    rcases h e he with h | h
    · rw [h]
      rfl
    · rw [h]
      exact fixp_keeps v
  · have h : ∀ e ∈ fix1.csrMap, e.1 < 0x3A0#16 ∨ 0x3AF#16 < e.1 ∨
        e.2 = csrRec 0#32 0xFFFFFFFF#32 .machine .identity := by decide
    rcases h e he with h | h | h
    · rw [hea] at h
      exact absurd h (BitVec.not_lt.mpr h₁)
    · rw [hea] at h
      exact absurd h (BitVec.not_lt.mpr h₂)
    · rw [h]
      decide

-- Witnesses: for each statement with hypotheses, states and operands that meet them, each clause at a boundary

theorem witness_StepRunsIssuedRequest : (fix.present [0x31]).requests = [0x31] :: [] ∧ decode [0x31] = .ok .cpuGetPc := by
  decide
theorem witness_StepIdleWithoutRequest : fix.requests = [] := by decide
theorem witness_UnassignedOpcodeAborts : (fix.present [0x37]).requests = [0x37] :: [] ∧
    (fix.present [0x37]).aborted = false ∧
    (∀ op ∈ [0x06#8, 0x0F#8, 0x12#8, 0x1F#8, 0x26#8, 0x2F#8, 0x37#8, 0x3E#8, 0xFF#8],
      (0x06 ≤ op.toNat ∧ op.toNat ≤ 0x0F) ∨ (0x12 ≤ op.toNat ∧ op.toNat ≤ 0x1F) ∨
        (0x26 ≤ op.toNat ∧ op.toNat ≤ 0x2F) ∨ op.toNat = 0x37 ∨ (0x3E ≤ op.toNat ∧ op.toNat ≤ 0xFF)) := by decide
theorem witness_MalformedFrameStops : (fix.present []).requests = [] :: [] ∧ decode [] = .error .emptyFrame ∧
    (fix.present [0x31, 0x00]).requests = [0x31, 0x00] :: [] ∧
    decode [0x31, 0x00] = .error (.wrongLength 0x31) := by decide
theorem witness_DecodeOfEncodeIsTheRequest :
    (Instr.regWriteBits 0xFFFFFFFF#32 255 255 0xFFFFFFFF#32).wellFormed = true ∧
    (Instr.csrWrite 0xFFFF#16 255 0#32).wellFormed = true ∧ (Instr.rfGet 0).wellFormed = true := by decide
theorem witness_DecodedFrameIsTheEncoding : decode [0x10, 0xFF] = .ok (.rfGet 255) := by decide
theorem witness_RegReadReturnsTheWord : fix.aborted = false := by decide
theorem witness_RegAsSignedReadsTwosComplement : fix.aborted = false ∧ (0x80000000#32).getLsbD 31 = true ∧
    (0x7FFFFFFF#32).getLsbD 31 = false := by decide
theorem witness_RegBitReturnsTheBit : fix.aborted = false ∧ 31 ≤ 31 ∧ 32 ≤ 32 := by decide
theorem witness_RegBitsReturnsTheField : fix.aborted = false ∧
    (∃ hi lo, lo ≤ hi ∧ hi ≤ 31 ∧ hi = 31 ∧ lo = 0) ∧ (∃ hi lo, (32 ≤ hi ∨ 32 ≤ lo) ∧ hi = 32 ∧ lo = 0) ∧
    (∃ hi lo, hi < lo ∧ lo ≤ 31 ∧ hi = 30 ∧ lo = 31) :=
  ⟨by decide, ⟨31, 0, by decide⟩, ⟨32, 0, by decide⟩, ⟨30, 31, by decide⟩⟩
theorem witness_RegWriteReplacesTheWord : fix.aborted = false := by decide
theorem witness_RegWriteBitsReplacesTheField : fix.aborted = false ∧
    ((0 : Nat) ≤ 31 ∧ (31 : Nat) ≤ 31 ∧ (0xFFFFFFFF#32).toNat < 2 ^ (31 - 0 + 1)) ∧
    ((4 : Nat) ≤ 19 ∧ (19 : Nat) ≤ 31 ∧ 2 ^ (19 - 4 + 1) ≤ (0x10000#32).toNat) ∧
    (32 ≤ 32 ∨ 32 ≤ 0) ∧ ((4 : Nat) < 5 ∧ (5 : Nat) ≤ 31) := by decide
theorem witness_RegisterLaws : fix.aborted = false ∧ (4 : Nat) ≤ 19 ∧ (19 : Nat) ≤ 31 ∧ (31 : Nat) ≤ 31 ∧
    (0xFFFF#32).toNat < 2 ^ (19 - 4 + 1) := by decide
theorem witness_GetReadsTheSlot : fix.aborted = false ∧ (Instr.rfGet = Instr.rfGet ∨ Instr.rfGet = Instr.cpuGetR) ∧
    (Instr.cpuGetR = Instr.rfGet ∨ Instr.cpuGetR = Instr.cpuGetR) ∧ 32 ≤ 32 :=
  ⟨by decide, .inl rfl, .inr rfl, by decide⟩
theorem witness_SetWritesTheSlot : fix.aborted = false ∧ (Instr.rfSet = Instr.rfSet ∨ Instr.rfSet = Instr.cpuSetR) ∧
    (Instr.cpuSetR = Instr.rfSet ∨ Instr.cpuSetR = Instr.cpuSetR) ∧ 32 ≤ 32 :=
  ⟨by decide, .inl rfl, .inr rfl, by decide⟩
theorem witness_RegisterFileLaws : fix.aborted = false ∧ (30 : Fin 32) ≠ 31 := by decide
theorem witness_SlotZeroReadsZero : exec (.rfSet 0 5#32) fix = .next fix.done ∧ fix.done.aborted = false ∧
    fix.aborted = false := ⟨rfl, rfl, rfl⟩
theorem witness_SlotsChangeOnlyBySet : exec (.rfSet 31 5#32) fix = .next (fix.setSlot 31 5#32).done ∧
    (fix.setSlot 31 5#32).done.xs[30] ≠ fix.xs[30] := ⟨rfl, by decide⟩
theorem witness_ExplicitReadReturnsTheCsr : fix.aborted = false ∧ fix.config.csr? 0x0141#16 = none ∧
    fix.config.csr? 0x0C00#16 = some (csrRec 7#32 0#32 .user .identity) := by decide
theorem witness_GatedReadReturnsTheCsr : fix.aborted = false ∧ modeOfCode fix.config 0b10 = none ∧
    modeOfCode fix.config 0b01 = some .supervisor ∧ fix.config.csr? 0x0141#16 = none ∧
    (fix.config.csr? 0x0300#16 = some (csrRec 0#32 0xFFFF#32 .machine .identity) ∧
      rank .supervisor < rank .machine) ∧
    (fix.config.csr? 0x0140#16 = some (csrRec 0xA5A50000#32 0xFFFF#32 .supervisor .identity) ∧
      rank .supervisor ≤ rank .supervisor) := by decide
theorem witness_GatedWriteMergesUnderTheMask : fix.aborted = false ∧ modeOfCode fix.config 4 = none ∧
    modeOfCode fix.config 0b00 = some .user ∧ fix.config.csr? 0xFFFF#16 = none ∧
    (fix.config.csr? 0x0140#16 = some (csrRec 0xA5A50000#32 0xFFFF#32 .supervisor .identity) ∧
      rank .user < rank .supervisor) ∧
    (fix.config.csr? 0x0C00#16 = some (csrRec 7#32 0#32 .user .identity) ∧ rank .user ≤ rank .user) := by decide
theorem witness_CsrResetRestoresTheBank : fix.aborted = false ∧ fix.config.WellFormed ∧
    fix.config.csr? 0x07C0#16 = some (csrRec 0xF0#32 0xFF#32 .machine (.clearBits 0xF0#32)) ∧
    fix.config.pmpcfgStart ≤ 0x3AF#16 ∧ 0x3AF#16 ≤ fix.config.pmpcfgEnd :=
  ⟨by decide, fix1_wellFormed, by decide, by decide, by decide⟩
theorem witness_GetPrivReturnsTheMode : fix.aborted = false := by decide
theorem witness_SetPrivSwitchesTheMode : fix.aborted = false ∧ modeOfCode fix.config 0b00 = some .user ∧
    modeOfCode fixNoUser.config 0b00 = none ∧ fixNoUser.aborted = false := by decide
theorem witness_CsrBankLaws : fix.aborted = false ∧
    (fix.config.csr? 0x0140#16 = some (csrRec 0xA5A50000#32 0xFFFF#32 .supervisor .identity) ∧
      modeOfCode fix.config 1 = some .supervisor ∧ rank .supervisor ≤ rank .supervisor ∧
      modeOfCode fix.config 0 = some .user ∧ rank .user < rank .supervisor) ∧
    fix.config.csr? 0x1000#16 = none := by decide
theorem witness_CurrentModeGovernsNoOperation :
    Instr.csrRead 0x0300#16 3 ≠ .csrGetPriv ∧ Instr.csrRead 0x0300#16 3 ≠ .cpuGetPriv := by decide
theorem witness_ModeChangesOnlyBySetPriv :
    exec (.csrSetPriv 1) fix = .next { fix with priv := .supervisor, responses := [.ok none] } := rfl
theorem witness_CsrsChangeOnlyByAccess :
    exec (.csrWrite 0x0342#16 3 5#32) fix = .next (fix.setCsr 0x0342#16 5#32).done := rfl
theorem witness_ProgramCounterRoundTrips : fix.aborted = false ∧
    exec (.cpuSetPc 0xFFFFFFFF#32) fix = .next { fix with pc := 0xFFFFFFFF#32, responses := [.ok none] } :=
  ⟨rfl, rfl⟩
theorem witness_PcChangesOnlyBySetPc :
    exec (.cpuSetPc 1#32) fix = .next { fix with pc := 1#32, responses := [.ok none] } := rfl
theorem witness_CounterCountsByOne : fix.aborted = false := by decide
theorem witness_CounterChangesOnlyByIncrement :
    exec .cpuIncrementInstCount fix = .next { fix with icount := 1#64, responses := [.ok none] } := rfl
theorem witness_IncrementsAddUp : fix.aborted = false := by decide
theorem witness_WritesAreIdempotent : exec (.cpuSetPc 1#32) fix = .next { fix with pc := 1#32, responses := [.ok none] } ∧
    ∃ v, Instr.cpuSetPc 1#32 = .cpuSetPc v := ⟨rfl, _, rfl⟩
theorem witness_InspectionIsRepeatable : fix.aborted = false ∧
    (∃ n, n ≤ 31 ∧ (Instr.rfGet 31 = .rfGet n ∨ Instr.rfGet 31 = .cpuGetR n)) :=
  ⟨by decide, 31, by decide, .inl rfl⟩
theorem witness_ConditionsComeFromCsrAccesses :
    exec (.csrRead 0x0300#16 1) fix =
      .next { fix with responses := .privilegeViolation 0x0300#16 .supervisor :: fix.responses } ∧
    exec (.csrExplicitRead 0x0141#16) fix = .next { fix with responses := .undefinedCsr 0x0141#16 :: fix.responses } :=
  ⟨rfl, rfl⟩
theorem witness_ConditionChangesNothing :
    exec (.csrWrite 0x0300#16 1 1#32) fix =
      .next { fix with responses := .privilegeViolation 0x0300#16 .supervisor :: fix.responses } ∧
    (Response.privilegeViolation 0x0300#16 .supervisor).isCondition = true := ⟨rfl, rfl⟩
theorem witness_AbortChangesOnlyItsFlag : exec (.rfSet 32 0#32) fix = .next (fix.abort .registerIndexOutOfRange) ∧
    (fix.abort .registerIndexOutOfRange).responses = .abort .registerIndexOutOfRange :: fix.responses := ⟨rfl, rfl⟩
theorem witness_AbortedBlockOnlyAborts : fixAborted.aborted = true ∧ Instr.cpuGetPc ≠ .cpuReset := by decide
theorem witness_AbortCausesAreTheList : exec (.rfGet 32) fix = .next (fix.abort .registerIndexOutOfRange) ∧
    (fix.present [0x37]).requests = [0x37] :: [] ∧ UnassignedOpcode 0x37 := ⟨rfl, rfl, .inr (.inr (.inr (.inl rfl)))⟩
theorem witness_ResetStateIsTheTable : fix1.WellFormed ∧ fix = State.afterReset fix1 ∧
    fix1.pmpcfgStart ≤ 0x3A0#16 ∧ 0x3A0#16 ≤ fix1.pmpcfgEnd := ⟨fix1_wellFormed, rfl, by decide, by decide⟩
theorem witness_PcAndCounterZeroAtReset : exec .cpuReset fix = .next fix.done := rfl
theorem witness_ParametersNeverChange : step (fix.present [0x30]) = .next fix.done := rfl
theorem witness_OnlyResetEndsAnAbort : fixAborted.aborted = true ∧
    step (fixAborted.present [0x30]) = .next fixAborted.resetBlock.done ∧
    fixAborted.resetBlock.done.aborted = false := ⟨rfl, rfl, rfl⟩

/-- The fixture's reset state meets the invariant. -/
theorem fix_inv : fix.Inv :=
  ⟨fix1_wellFormed, (fun h => by cases h), by decide,
    fun a e v he _ hv => by
      rw [csr?_resetBank (s := fix) (t := fix) rfl rfl, he] at hv
      cases hv
      rfl,
    fun h => by cases h⟩

theorem witness_ReadOnlyBitsKeepTheirResetValue : ReadOnlyBitsAtReset (fix.present [0x24]) ∧
    step (fix.present [0x24]) = .next (fix.returns (.mode .machine)) := ⟨fix_inv.readOnlyBits, rfl⟩

theorem witness_StepKeepsTheStateInvariant : (fix.present [0x24]).Inv ∧
    step (fix.present [0x24]) = .next (fix.returns (.mode .machine)) :=
  ⟨⟨fix_inv.configOk, fix_inv.privExists, fix_inv.bankComplete, fix_inv.readOnlyBits, fix_inv.abortAnswered⟩, rfl⟩

end Sys2Proof.Tests
end

section
/-! One step of the block, by what stands at the head of its queue of requests. -/

namespace Sys2Proof.Machine

theorem takeRequest_of_nil {s : State} (hq : s.requests = []) : takeRequest s = none := by
  simp only [takeRequest, hq]

theorem takeRequest_of_cons {s : State} {frame : List Byte} {rest : List (List Byte)}
    (hq : s.requests = frame :: rest) : takeRequest s = some (frame, { s with requests := rest }) := by
  simp only [takeRequest, hq]

theorem step_of_nil {s : State} (hq : s.requests = []) : step s = .next s := by
  simp only [step, runNextRequest, takeRequest_of_nil hq]

/-- A step with a request pending runs what the oldest frame decodes to, at the state with that frame taken. The
decode errors are cases of `runDecoded` too, so this is the one rule for every non-empty queue. -/
theorem step_of_cons {s : State} {frame : List Byte} {rest : List (List Byte)} (hq : s.requests = frame :: rest) :
    step s = runDecoded frame (decode frame) { s with requests := rest } := by
  simp only [step, runNextRequest, takeRequest_of_cons hq]

@[simp] theorem runDecoded_ok (frame : List Byte) (i : Instr) (s : State) : runDecoded frame (.ok i) s = exec i s := rfl

/-- Settles O1: the rule for a non-empty queue, at a frame that decodes to an operation. -/
theorem stepRunsIssuedRequest : Obligations.StepRunsIssuedRequest := by
  intro s frame rest i hq hd
  calc step s = runDecoded frame (decode frame) { s with requests := rest } := step_of_cons hq
    _ = exec i { s with requests := rest } := by rw [hd, runDecoded_ok]

/-- Settles O2: the rule for an empty queue. -/
theorem stepIdleWithoutRequest : Obligations.StepIdleWithoutRequest :=
  fun _ hq => step_of_nil hq

end Sys2Proof.Machine
end

section
/-! The fields each shared operation leaves alone, and from them, by the effects an operation can have, the
operations that change each element of the state. -/

namespace Sys2Proof.Machine

section Frames

variable (s : State)

@[simp] theorem setSlot_config (n : Fin 32) (v : Word) : (s.setSlot n v).config = s.config := by rw [setSlot_eq]
@[simp] theorem setSlot_pc (n : Fin 32) (v : Word) : (s.setSlot n v).pc = s.pc := by rw [setSlot_eq]
@[simp] theorem setSlot_icount (n : Fin 32) (v : Word) : (s.setSlot n v).icount = s.icount := by rw [setSlot_eq]
@[simp] theorem setSlot_csr (n : Fin 32) (v : Word) : (s.setSlot n v).csr = s.csr := by rw [setSlot_eq]
@[simp] theorem setSlot_priv (n : Fin 32) (v : Word) : (s.setSlot n v).priv = s.priv := by rw [setSlot_eq]
@[simp] theorem setSlot_aborted (n : Fin 32) (v : Word) : (s.setSlot n v).aborted = s.aborted := by rw [setSlot_eq]

/-- R23: a write to one slot leaves the others. -/
theorem getElem_xs_setSlot_ne {n : Fin 32} {k : Fin 31} (v : Word) (h : n ≠ k.succ) :
    (s.setSlot n v).xs[k.val] = s.xs[k.val] := by
  cases n using Fin.cases with
  | zero => rfl
  | succ j =>
    have hjk : j.val ≠ k.val := fun hv => h (congrArg Fin.succ (Fin.ext hv))
    simp only [setSlot_succ, Vector.getElem_set_ne _ _ hjk]

@[simp] theorem applyReadEffect_config (a : CsrAddr) (e : CsrRecord) :
    (s.applyReadEffect a e).config = s.config := by rw [applyReadEffect_eq]
@[simp] theorem applyReadEffect_xs (a : CsrAddr) (e : CsrRecord) :
    (s.applyReadEffect a e).xs = s.xs := by rw [applyReadEffect_eq]
@[simp] theorem applyReadEffect_pc (a : CsrAddr) (e : CsrRecord) :
    (s.applyReadEffect a e).pc = s.pc := by rw [applyReadEffect_eq]
@[simp] theorem applyReadEffect_icount (a : CsrAddr) (e : CsrRecord) :
    (s.applyReadEffect a e).icount = s.icount := by rw [applyReadEffect_eq]
@[simp] theorem applyReadEffect_priv (a : CsrAddr) (e : CsrRecord) :
    (s.applyReadEffect a e).priv = s.priv := by rw [applyReadEffect_eq]
@[simp] theorem applyReadEffect_aborted (a : CsrAddr) (e : CsrRecord) :
    (s.applyReadEffect a e).aborted = s.aborted := by rw [applyReadEffect_eq]

/-- An unassigned op code aborts, whether or not the block has aborted before. -/
theorem answerUnassigned_eq_abort : ∃ e, answerUnassigned s = s.abort e := by
  cases hs : s.aborted with
  | false => exact ⟨_, whileRunning_running hs _⟩
  | true => exact ⟨_, whileRunning_aborted hs _⟩

end Frames

section Changes

variable {s t : State} {i : Instr}

theorem Effect.config_eq (h : Effect s i t) : t.config = s.config := by
  cases h with
  | slot n v => exact setSlot_config s n v
  | readCsr a p e => exact applyReadEffect_config s a e
  | _ => rfl

theorem Effect.pc_cases (h : Effect s i t) :
    t.pc = s.pc ∨ i = .cpuSetPc t.pc ∨ (i = .cpuReset ∧ t.pc = 0#32) := by
  cases h with
  | pc v => exact .inr (.inl rfl)
  | reset => exact .inr (.inr ⟨rfl, rfl⟩)
  | slot n v => exact .inl (setSlot_pc s n v)
  | readCsr a p e => exact .inl (applyReadEffect_pc s a e)
  | _ => exact .inl rfl

theorem Effect.icount_cases (h : Effect s i t) :
    t.icount = s.icount ∨ (i = .cpuIncrementInstCount ∧ t.icount = s.icount + 1#64) ∨
    (i = .cpuReset ∧ t.icount = 0#64) := by
  cases h with
  | count => exact .inr (.inl ⟨rfl, rfl⟩)
  | reset => exact .inr (.inr ⟨rfl, rfl⟩)
  | slot n v => exact .inl (setSlot_icount s n v)
  | readCsr a p e => exact .inl (applyReadEffect_icount s a e)
  | _ => exact .inl rfl

/-- The mode an operation leaves: the old one, the one its operand names, or after a reset Machine. -/
theorem Effect.priv_cases (h : Effect s i t) :
    t.priv = s.priv ∨
    (∃ code, (i = .csrSetPriv code ∨ i = .cpuSetPriv code) ∧ modeOfCode s.config code = some t.priv) ∨
    ((i = .csrReset ∨ i = .cpuCsrReset ∨ i = .cpuReset) ∧ t.priv = .machine) := by
  cases h with
  | priv code m _ hm hi => exact .inr (.inl ⟨code, hi, hm⟩)
  | bankReset _ hi => exact .inr (.inr ⟨hi.imp_right .inl, rfl⟩)
  | reset => exact .inr (.inr ⟨.inr (.inr rfl), rfl⟩)
  | slot n v => exact .inl (setSlot_priv s n v)
  | readCsr a p e => exact .inl (applyReadEffect_priv s a e)
  | _ => exact .inl rfl

theorem Effect.slot_cases (h : Effect s i t) (k : Fin 31) :
    t.xs[k.val] = s.xs[k.val] ∨ i = .cpuReset ∨ ∃ v, i = .rfSet (k.val + 1) v ∨ i = .cpuSetR (k.val + 1) v := by
  cases h with
  | slot n v _ hi =>
    by_cases hn : n = k.succ
    · subst hn
      exact .inr (.inr ⟨v, hi⟩)
    · exact .inl (getElem_xs_setSlot_ne s v hn)
  | reset => exact .inr (.inl rfl)
  | readCsr a p e => exact .inl (by simp only [returns_xs, applyReadEffect_xs])
  | _ => exact .inl rfl

theorem Effect.csr?_cases (h : Effect s i t) (a : CsrAddr) :
    t.csr? a = s.csr? a ∨ (∃ p, i = .csrRead a p ∨ i = .cpuCsrRead a p) ∨
    (∃ p v, i = .csrWrite a p v ∨ i = .cpuCsrWrite a p v) ∨
    i = .csrReset ∨ i = .cpuCsrReset ∨ i = .cpuReset := by
  cases h with
  | readCsr b p e _ _ _ hi =>
    by_cases hab : a = b
    · subst hab
      exact .inr (.inl ⟨p, hi⟩)
    · exact .inl (csr?_applyReadEffect_ne s e hab)
  | writeCsr b p v e _ _ _ hi =>
    by_cases hab : a = b
    · subst hab
      exact .inr (.inr (.inl ⟨p, v, hi⟩))
    · exact .inl (csr?_setCsr_ne s _ hab)
  | bankReset _ hi => exact .inr (.inr (.inr (hi.imp_right .inl)))
  | reset => exact .inr (.inr (.inr (.inr (.inr rfl))))
  | slot n v => exact .inl (csr?_congr (setSlot_config s n v) (setSlot_csr s n v) a)
  | _ => exact .inl rfl

/-- The block runs on after every effect but an abort. -/
theorem Effect.abort_or_running (h : Effect s i t) : (∃ e, t = s.abort e) ∨ t.aborted = false := by
  cases h with
  | abort e => exact .inl ⟨e, rfl⟩
  | reset => exact .inr rfl
  | slot n v hs => exact .inr ((setSlot_aborted s n v).trans hs)
  | readCsr a p e hs => exact .inr ((applyReadEffect_aborted s a e).trans hs)
  | undefined _ hs | violation _ _ _ _ hs | value _ hs | pc _ hs | count hs | writeCsr _ _ _ _ hs | bankReset hs
  | priv _ _ hs => exact .inr hs

/-- R204: an aborted block has two effects left, another abort and `CPU.reset`. -/
theorem Effect.of_aborted (h : Effect s i t) (hs : s.aborted = true) :
    (∃ e, t = s.abort e) ∨ (i = .cpuReset ∧ t = s.resetBlock.done) := by
  cases h with
  | abort e => exact .inl ⟨e, rfl⟩
  | reset => exact .inr ⟨rfl, rfl⟩
  | undefined _ hr | violation _ _ _ _ hr | value _ hr | slot _ _ hr | pc _ hr | count hr | readCsr _ _ _ hr
  | writeCsr _ _ _ _ hr | bankReset hr | priv _ _ hr => simp [hs] at hr

/-- What a step keeps: a property that does not speak of the driver's queue, that an abort keeps and that every effect
of an operation keeps. -/
theorem step_keeps {P : State → Prop} (hqueue : ∀ s rest, P s → P { s with requests := rest })
    (habort : ∀ s e, P s → P (s.abort e)) (heffect : ∀ s i t, P s → Effect s i t → P t)
    (hs : P s) (h : step s = .next t) : P t := by
  rcases step_cases h with ⟨-, rfl⟩ | ⟨frame, rest, -, ⟨i, -, hi⟩ | ⟨op, -, rfl⟩⟩
  · exact hs
  · exact heffect _ i t (hqueue s rest hs) (effect_of_exec hi)
  · obtain ⟨e, he⟩ := answerUnassigned_eq_abort { s with requests := rest }
    rw [he]
    exact habort _ e (hqueue s rest hs)

end Changes

/-- Settles O21: the effects on one slot. -/
theorem slotsChangeOnlyBySet : Obligations.SlotsChangeOnlyBySet :=
  fun _ _ _ k h => (effect_of_exec h).slot_cases k

/-- Settles O30: the effects on the mode. -/
theorem modeChangesOnlyBySetPriv : Obligations.ModeChangesOnlyBySetPriv := by
  intro s t i h
  rcases (effect_of_exec h).priv_cases with hsame | ⟨code, hi, -⟩ | hreset
  · exact .inl hsame
  · exact .inr (.inl ⟨code, hi⟩)
  · exact .inr (.inr hreset)

/-- Settles O31: the effects on the CSR at one address. -/
theorem csrsChangeOnlyByAccess : Obligations.CsrsChangeOnlyByAccess :=
  fun _ _ _ a h => (effect_of_exec h).csr?_cases a

/-- Settles O35: the effects on `pc`. -/
theorem pcChangesOnlyBySetPc : Obligations.PcChangesOnlyBySetPc :=
  fun _ _ _ h => (effect_of_exec h).pc_cases

/-- Settles O37: the effects on the counter, its increment read as an integer. -/
theorem counterChangesOnlyByIncrement : Obligations.CounterChangesOnlyByIncrement := by
  intro s t i h
  rcases (effect_of_exec h).icount_cases with hsame | ⟨hi, hcount⟩ | hreset
  · exact .inl hsame
  · exact .inr (.inl ⟨hi, by rw [hcount, toNat_count_succ]⟩)
  · exact .inr (.inr hreset)

/-- Settles O51: to have a given configuration is kept by every step. -/
theorem parametersNeverChange : Obligations.ParametersNeverChange := by
  intro s t h
  refine step_keeps (P := fun u => u.config = s.config) ?_ ?_ ?_ rfl h
  · exact fun _ _ hu => hu
  · exact fun _ _ hu => hu
  · exact fun _ _ _ hu he => he.config_eq.trans hu

/-- Settles O52: idle and an unassigned op code leave the block aborted, and of the effects on an aborted block only
the one of `CPU.reset` does not. -/
theorem onlyResetEndsAnAbort : Obligations.OnlyResetEndsAnAbort := by
  intro s t hs h ht
  rcases step_cases h with ⟨-, rfl⟩ | ⟨frame, rest, hq, ⟨i, hd, hi⟩ | ⟨op, -, rfl⟩⟩
  · simp [hs] at ht
  · rcases (effect_of_exec hi).of_aborted hs with ⟨e, rfl⟩ | ⟨rfl, rfl⟩
    · simp at ht
    · exact ⟨frame, rest, hq, hd, rfl⟩
  · obtain ⟨e, he⟩ := answerUnassigned_eq_abort { s with requests := rest }
    simp [he] at ht

end Sys2Proof.Machine
end

section
/-! The invariant of the state: the read-only bits of the CSRs (R149) and the addresses of the bank (R30) through an
access and through a reset, and each part of the invariant through every effect. -/

namespace Sys2Proof.Machine

section Preservation

variable {s t : State} {i : Instr}

theorem mem_keys_of_csr? {c : Config} {a : CsrAddr} {e : CsrRecord} (he : c.csr? a = some e) :
    a ∈ c.csrMap.map Prod.fst :=
  List.mem_map_of_mem (f := Prod.fst) (Config.mem_of_csr? he)

theorem keys_resetCsrs (c : Config) : (resetCsrs c).map Prod.fst = c.csrMap.map Prod.fst := by
  simp only [resetCsrs, List.map_map, Function.comp_def]

/-- A read effect on a CSR that has a cell keeps the addresses of the bank. -/
theorem keys_applyReadEffect {a : CsrAddr} (e : CsrRecord) (ha : a ∈ s.csr.map Prod.fst) :
    (s.applyReadEffect a e).csr.map Prod.fst = s.csr.map Prod.fst := by
  unfold State.applyReadEffect
  split
  · rfl
  · exact keys_bankSet _ _ ha

theorem Effect.bankComplete (h : Effect s i t) (hs : s.csr.map Prod.fst = s.config.csrMap.map Prod.fst) :
    t.csr.map Prod.fst = t.config.csrMap.map Prod.fst := by
  rw [h.config_eq]
  cases h with
  | readCsr a p e _ _ he => exact (keys_applyReadEffect e (hs ▸ mem_keys_of_csr? he)).trans hs
  | writeCsr a p v e _ _ he => exact (keys_bankSet _ _ (hs ▸ mem_keys_of_csr? he)).trans hs
  | bankReset | reset => exact keys_resetCsrs s.config
  | slot n v => exact (congrArg (List.map Prod.fst) (setSlot_csr s n v)).trans hs
  | _ => exact hs

/-- Read-only bits are a matter of the configuration and the bank. -/
theorem ReadOnlyBitsAtReset.congr (hs : ReadOnlyBitsAtReset s) (hc : t.config = s.config) (hb : t.csr = s.csr) :
    ReadOnlyBitsAtReset t := by
  intro a e v he hkeep hv
  exact hs a e v (hc ▸ he) hkeep (csr?_congr hc hb a ▸ hv)

/-- A bank with every defined CSR at its reset value has its read-only bits there. -/
theorem readOnlyBitsAtReset_of_resetBank (hb : t.csr = resetCsrs t.config) : ReadOnlyBitsAtReset t := by
  intro a e v he _ hv
  rw [csr?_resetBank (s := t) rfl hb, he] at hv
  cases hv
  rfl

/-- An access to one CSR that leaves its read-only bits, as long as its read effect does, keeps those of all. -/
theorem ReadOnlyBitsAtReset.of_access {a : CsrAddr} {e : CsrRecord} {w : Word} (hs : ReadOnlyBitsAtReset s)
    (hc : t.config = s.config) (he : s.config.csr? a = some e) (hother : ∀ b, b ≠ a → t.csr? b = s.csr? b)
    (hcell : t.csr? a = some w) (hw : e.KeepsReadOnlyBits → w &&& ~~~e.writeMask = s.cell a e &&& ~~~e.writeMask) :
    ReadOnlyBitsAtReset t := by
  intro b f v hf hkeep hv
  rw [hc] at hf
  by_cases hba : b = a
  · subst hba
    obtain rfl : e = f := Option.some.inj (he.symm.trans hf)
    obtain rfl : w = v := Option.some.inj (hcell.symm.trans hv)
    exact (hw hkeep).trans (hs b e _ he hkeep (csr?_eq_some s he))
  · exact hs b f v hf hkeep (hother b hba ▸ hv)

theorem Effect.readOnlyBits (h : Effect s i t) (hs : ReadOnlyBitsAtReset s) : ReadOnlyBitsAtReset t := by
  have hc := h.config_eq
  cases h with
  | readCsr a p e _ _ he =>
    exact hs.of_access hc he (fun b hb => csr?_applyReadEffect_ne s e hb) (csr?_applyReadEffect_same s he)
      fun hkeep => hkeep _
  | writeCsr a p v e _ _ he =>
    exact hs.of_access hc he (fun b hb => csr?_setCsr_ne s _ hb) (csr?_setCsr_same s _ he)
      fun _ => maskedWrite_outside _ _ _
  | bankReset | reset => exact readOnlyBitsAtReset_of_resetBank rfl
  | slot n v => exact hs.congr hc (setSlot_csr s n v)
  | _ => exact hs.congr hc rfl

theorem Effect.privExists (h : Effect s i t) (hs : s.priv = .user → s.config.hasUser = true) :
    t.priv = .user → t.config.hasUser = true := by
  rw [h.config_eq]
  intro ht
  rcases h.priv_cases with hsame | ⟨code, -, hm⟩ | ⟨-, hmachine⟩
  · exact hs (hsame ▸ ht)
  · rw [ht] at hm
    exact modeExists_of_code hm
  · rw [ht] at hmachine
    cases hmachine

theorem Effect.abortAnswered (h : Effect s i t) (ht : t.aborted = true) :
    ∃ e rest, t.responses = .abort e :: rest := by
  rcases h.abort_or_running with ⟨e, rfl⟩ | hrun
  · exact ⟨e, s.responses, rfl⟩
  · rw [ht] at hrun
    cases hrun

/-- Every effect of an operation keeps the invariant. -/
theorem State.Inv.of_effect (hs : s.Inv) (h : Effect s i t) : t.Inv where
  configOk := h.config_eq ▸ hs.configOk
  privExists := h.privExists hs.privExists
  bankComplete := h.bankComplete hs.bankComplete
  readOnlyBits := h.readOnlyBits hs.readOnlyBits
  abortAnswered := h.abortAnswered

/-- An abort keeps the invariant: it is the answer the last part asks for. -/
theorem State.Inv.of_abort (hs : s.Inv) (e : ProgrammerError) : (s.abort e).Inv :=
  { hs with abortAnswered := fun _ => ⟨e, s.responses, rfl⟩ }

/-- The invariant does not speak of the driver's queue. -/
theorem State.Inv.of_requests (hs : s.Inv) (rest : List (List Byte)) : State.Inv { s with requests := rest } :=
  { hs with }

end Preservation

/-- Settles O53: every effect, an abort and the taking of a request keep the invariant. -/
theorem stepKeepsTheStateInvariant : Obligations.StepKeepsTheStateInvariant :=
  fun _ _ hs h => step_keeps (fun _ rest hu => hu.of_requests rest) (fun _ e hu => hu.of_abort e)
    (fun _ _ _ hu he => hu.of_effect he) hs h

end Sys2Proof.Machine
end

section
/-! The state after reset (R43): the configuration it is of, the CSRs with bits that a reset clears (R32 to R36), and
the invariant. -/

namespace Sys2Proof.Machine

/-- R38: the machine's configuration passes the check, whichever branch chose it. -/
theorem chosen_wellFormed : Config.chosen.WellFormed := by
  unfold Config.chosen
  split
  · assumption
  · exact Config.fallback_wellFormed

/-- A bit of `x` is clear where a mask that has it meets `x` in zero. -/
theorem getLsbD_eq_false_of_and_eq_zero {x mask : Word} (h : x &&& mask = 0#32) {j : Nat}
    (hj : mask.getLsbD j = true) : x.getLsbD j = false := by
  have hbit : (x &&& mask).getLsbD j = false := by rw [h, BitVec.getLsbD_zero]
  simpa [hj] using hbit

section ResetBank

variable {s : State} (hb : s.csr = resetCsrs s.config)
include hb

/-- In a bank at its reset values a named CSR has the bits clear that its rule asks for. -/
theorem csr?_of_namesCsr {a : CsrAddr} {zero : Word} (h : s.config.NamesCsr a zero) :
    ∃ v, s.csr? a = some v ∧ v &&& zero = 0#32 := by
  obtain ⟨e, he, -, -, hzero⟩ := h.record
  exact ⟨e.resetValue, by rw [csr?_resetBank (s := s) rfl hb, he]; rfl, hzero⟩

/-- A named CSR with every bit clear at reset reads zero. -/
theorem csr?_of_namesCsr_allOnes {a : CsrAddr} (h : s.config.NamesCsr a (BitVec.allOnes 32)) :
    s.csr? a = some 0#32 := by
  obtain ⟨v, hv, hzero⟩ := csr?_of_namesCsr hb h
  rw [BitVec.and_allOnes] at hzero
  rw [hv, hzero]

/-- R32. -/
theorem mstatus_of_resetBank (h : s.config.WellFormed) :
    ∃ v, s.csr? s.config.mstatus = some v ∧ v.getLsbD 3 = false ∧ v.getLsbD 17 = false := by
  obtain ⟨v, hv, hzero⟩ := csr?_of_namesCsr hb h.namesMstatus
  exact ⟨v, hv, getLsbD_eq_false_of_and_eq_zero hzero (by decide), getLsbD_eq_false_of_and_eq_zero hzero (by decide)⟩

/-- R35. -/
theorem mstatush_of_resetBank (h : s.config.WellFormed) :
    ∃ v, s.csr? s.config.mstatush = some v ∧ v.getLsbD 5 = false := by
  obtain ⟨v, hv, hzero⟩ := csr?_of_namesCsr hb h.namesMstatush
  exact ⟨v, hv, getLsbD_eq_false_of_and_eq_zero hzero (by decide)⟩

/-- R36. -/
theorem pmpcfg_of_resetBank (h : s.config.WellFormed) {a : CsrAddr} (hlo : s.config.pmpcfgStart ≤ a)
    (hhi : a ≤ s.config.pmpcfgEnd) :
    ∃ v, s.csr? a = some v ∧ v.getLsbD 3 = false ∧ v.getLsbD 4 = false ∧ v.getLsbD 7 = false := by
  obtain ⟨v, hv, hzero⟩ := csr?_of_namesCsr hb (h.namesPmpcfg hlo hhi)
  exact ⟨v, hv, getLsbD_eq_false_of_and_eq_zero hzero (by decide),
    getLsbD_eq_false_of_and_eq_zero hzero (by decide), getLsbD_eq_false_of_and_eq_zero hzero (by decide)⟩

end ResetBank

theorem afterReset_csr (c : Config) : (State.afterReset c).csr = resetCsrs (State.afterReset c).config := rfl

/-- The state after reset meets the invariant, under every configuration that passes the check. -/
theorem afterReset_inv {c : Config} (hc : c.WellFormed) : (State.afterReset c).Inv where
  configOk := hc
  privExists := by intro h; cases h
  bankComplete := keys_resetCsrs c
  readOnlyBits := readOnlyBitsAtReset_of_resetBank (afterReset_csr c)
  abortAnswered := by intro h; cases h

/-- Settles O48: the fields of the state after reset, and of the one effect of `CPU.reset`. -/
theorem pcAndCounterZeroAtReset : Obligations.PcAndCounterZeroAtReset := by
  refine ⟨rfl, rfl, fun s t h => ?_⟩
  obtain rfl : s.resetBlock.done = t := Host.Outcome.next.inj h
  exact ⟨rfl, rfl⟩

/-- Settles O49: the chosen configuration is one that passes, and the bank holds the reset values. -/
theorem resetStateIsTheTable : Obligations.ResetStateIsTheTable := by
  refine ⟨⟨Config.chosen, chosen_wellFormed, rfl⟩, ?_⟩
  rintro c hc s rfl
  have hb := afterReset_csr c
  refine ⟨rfl, rfl, rfl, rfl, rfl, rfl, rfl, mstatus_of_resetBank hb hc, mstatush_of_resetBank hb hc,
    csr?_of_namesCsr_allOnes hb hc.namesMisa, csr?_of_namesCsr_allOnes hb hc.namesMcause,
    fun a hlo hhi => pmpcfg_of_resetBank hb hc hlo hhi, fun a e he => ?_⟩
  rw [csr?_resetBank (s := State.afterReset c) rfl hb]
  exact congrArg (Option.map CsrRecord.resetValue) he

/-- Settles O50. -/
theorem configurationPassesTheCheck : Obligations.ConfigurationPassesTheCheck := chosen_wellFormed

/-- Settles O54. -/
theorem resetMeetsTheStateInvariant : Obligations.ResetMeetsTheStateInvariant := afterReset_inv chosen_wellFormed

end Sys2Proof.Machine
end

section
/-! Slot 0 of the register file (R21). -/

namespace Sys2Proof.Machine

section Running

variable {s : State} (hs : s.aborted = false)
include hs

/-- R120, R175: slot 0 has no storage that an operation could have left a value in. -/
theorem exec_get_zero : exec (.rfGet 0) s = .next (s.returns (.word 0#32)) ∧
    exec (.cpuGetR 0) s = .next (s.returns (.word 0#32)) :=
  ⟨congrArg Host.Outcome.next (whileRunning_running hs (opGet s 0)),
    congrArg Host.Outcome.next (whileRunning_running hs (opGet s 0))⟩

/-- R121, R176: a write to slot 0 is discarded. -/
theorem exec_set_zero (v : Word) : exec (.rfSet 0 v) s = .next s.done ∧ exec (.cpuSetR 0 v) s = .next s.done :=
  ⟨congrArg Host.Outcome.next (whileRunning_running hs (opSet s 0 v)),
    congrArg Host.Outcome.next (whileRunning_running hs (opSet s 0 v))⟩

end Running

/-- Settles O20: a read of slot 0 gives zero in every running state, so in one that an operation left. -/
theorem slotZeroReadsZero : Obligations.SlotZeroReadsZero := by
  refine ⟨fun s t i _ ht => ?_, fun s v hs => exec_set_zero hs v⟩
  obtain ⟨hrf, hcpu⟩ := exec_get_zero ht
  rw [hrf, hcpu]
  exact ⟨rfl, rfl⟩

end Sys2Proof.Machine
end

section
/-! The current mode (R39): an operation run in two states that differ in the mode alone. -/

namespace Sys2Proof.Machine

/-- What `t` and `u`, left by one operation from `s` and from `s` in mode `m`, have in common: all but the mode, and
the mode too unless the operation left both as they were. -/
def AgreeButMode (s : State) (m : PrivMode) (t u : State) : Prop :=
  u = { t with priv := u.priv } ∧ ((t.priv = s.priv ∧ u.priv = m) ∨ u.priv = t.priv)

section Agree

variable {s : State} {m : PrivMode}

theorem AgreeButMode.of_update {t u : State} (hu : u = { t with priv := m }) (ht : t.priv = s.priv) :
    AgreeButMode s m t u := by
  subst hu
  exact ⟨rfl, .inl ⟨ht, rfl⟩⟩

theorem AgreeButMode.refl (t : State) : AgreeButMode s m t t := ⟨rfl, .inr rfl⟩

theorem agree_answer (r : Response) : AgreeButMode s m (s.answer r) (State.answer { s with priv := m } r) :=
  .of_update rfl rfl

theorem agree_abort (e : ProgrammerError) : AgreeButMode s m (s.abort e) (State.abort { s with priv := m } e) :=
  .of_update rfl rfl

/-- Both runs find the block aborted, or both run the operation. -/
theorem AgreeButMode.whileRunning {t u : State} (h : AgreeButMode s m t u) :
    AgreeButMode s m (s.whileRunning t) (State.whileRunning { s with priv := m } u) := by
  rcases Bool.eq_false_or_eq_true s.aborted with hs | hs
  · rw [whileRunning_aborted hs, whileRunning_aborted (s := { s with priv := m }) hs]
    exact agree_abort _
  · rwa [whileRunning_running hs, whileRunning_running (s := { s with priv := m }) hs]

theorem agree_withMode {p : Nat} {k k' : PrivMode → State} (hk : ∀ n, AgreeButMode s m (k n) (k' n)) :
    AgreeButMode s m (s.withMode p k) (State.withMode { s with priv := m } p k') := by
  unfold State.withMode
  cases modeOfCode s.config p with
  | none => exact agree_abort _
  | some n => exact hk n

theorem agree_withCsr {a : CsrAddr} {k k' : CsrRecord → State} (hk : ∀ e, AgreeButMode s m (k e) (k' e)) :
    AgreeButMode s m (s.withCsr a k) (State.withCsr { s with priv := m } a k') := by
  unfold State.withCsr
  cases s.config.csr? a with
  | none => exact agree_answer _
  | some e => exact hk e

/-- R145, D6: the gate reads the privilege operand and not the mode. -/
theorem agree_gated {a : CsrAddr} {p : Nat} {k k' : CsrRecord → State} (hk : ∀ e, AgreeButMode s m (k e) (k' e)) :
    AgreeButMode s m (s.gated a p k) (State.gated { s with priv := m } a p k') := by
  refine agree_withMode fun n => agree_withCsr fun e => ?_
  split
  · exact agree_answer _
  · exact hk e

theorem agree_opBit (r : Word) (n : Nat) : AgreeButMode s m (opBit s r n) (opBit { s with priv := m } r n) := by
  unfold opBit
  split
  · exact agree_abort _
  · exact agree_answer _

theorem agree_opBits (r : Word) (hi lo : Nat) :
    AgreeButMode s m (opBits s r hi lo) (opBits { s with priv := m } r hi lo) := by
  unfold opBits
  cases rangeError hi lo with
  | none => exact agree_answer _
  | some e => exact agree_abort e

theorem agree_opWriteBits (r : Word) (hi lo : Nat) (v : Word) :
    AgreeButMode s m (opWriteBits s r hi lo v) (opWriteBits { s with priv := m } r hi lo v) := by
  unfold opWriteBits
  cases rangeError hi lo with
  | none =>
    dsimp only
    split
    · exact agree_abort _
    · exact agree_answer _
  | some e => exact agree_abort e

theorem agree_opGet (n : Nat) : AgreeButMode s m (opGet s n) (opGet { s with priv := m } n) := by
  unfold opGet
  split
  · exact agree_answer _
  · exact agree_abort _

theorem setSlot_withPriv (n : Fin 32) (v : Word) :
    State.setSlot { s with priv := m } n v = { s.setSlot n v with priv := m } := by
  unfold State.setSlot
  split <;> rfl

theorem agree_opSet (n : Nat) (v : Word) : AgreeButMode s m (opSet s n v) (opSet { s with priv := m } n v) := by
  unfold opSet
  split
  · exact .of_update (congrArg State.done (setSlot_withPriv _ v)) (setSlot_priv s _ v)
  · exact agree_abort _

theorem agree_opExplicitRead (a : CsrAddr) :
    AgreeButMode s m (opExplicitRead s a) (opExplicitRead { s with priv := m } a) :=
  agree_withCsr fun _ => agree_answer _

theorem applyReadEffect_withPriv (a : CsrAddr) (e : CsrRecord) :
    State.applyReadEffect { s with priv := m } a e = { s.applyReadEffect a e with priv := m } := by
  unfold State.applyReadEffect
  split <;> rfl

theorem agree_opCsrRead (a : CsrAddr) (p : Nat) :
    AgreeButMode s m (opCsrRead s a p) (opCsrRead { s with priv := m } a p) :=
  agree_gated fun e => .of_update (congrArg (State.returns · (.word (s.cell a e))) (applyReadEffect_withPriv a e))
    (applyReadEffect_priv s a e)

theorem agree_opCsrWrite (a : CsrAddr) (p : Nat) (v : Word) :
    AgreeButMode s m (opCsrWrite s a p v) (opCsrWrite { s with priv := m } a p v) :=
  agree_gated fun _ => .of_update rfl rfl

theorem agree_opSetPriv (code : Nat) : AgreeButMode s m (opSetPriv s code) (opSetPriv { s with priv := m } code) :=
  agree_withMode fun _ => .refl _

theorem agree_opCsrReset : AgreeButMode s m (opCsrReset s) (opCsrReset { s with priv := m }) := .refl _

/-- An operation that does not return the mode runs in both modes to states that agree. -/
theorem exec_agree {i : Instr} (hcsr : i ≠ .csrGetPriv) (hcpu : i ≠ .cpuGetPriv) :
    ∃ t u, exec i s = .next t ∧ exec i { s with priv := m } = .next u ∧ AgreeButMode s m t u := by
  cases i <;> refine ⟨_, _, rfl, rfl, ?_⟩
  case csrGetPriv => exact absurd rfl hcsr
  case cpuGetPriv => exact absurd rfl hcpu
  case cpuReset => exact .refl _
  case regRead | regAsSigned | regWrite | cpuGetPc | cpuGetInstCount => exact (agree_answer _).whileRunning
  case cpuSetPc | cpuIncrementInstCount => exact .whileRunning (.of_update rfl rfl)
  case regBit r n => exact (agree_opBit r n).whileRunning
  case regBits r hi lo => exact (agree_opBits r hi lo).whileRunning
  case regWriteBits r hi lo v => exact (agree_opWriteBits r hi lo v).whileRunning
  case rfGet n | cpuGetR n => exact (agree_opGet n).whileRunning
  case rfSet n v | cpuSetR n v => exact (agree_opSet n v).whileRunning
  case csrExplicitRead a | cpuCsrExplicitRead a => exact (agree_opExplicitRead a).whileRunning
  case csrRead a p | cpuCsrRead a p => exact (agree_opCsrRead a p).whileRunning
  case csrWrite a p v | cpuCsrWrite a p v => exact (agree_opCsrWrite a p v).whileRunning
  case csrReset | cpuCsrReset => exact agree_opCsrReset.whileRunning
  case csrSetPriv code | cpuSetPriv code => exact (agree_opSetPriv code).whileRunning

end Agree

/-- Settles O29: the two runs of each operation agree but for the mode, those of the gated accesses because the gate
reads its operand. -/
theorem currentModeGovernsNoOperation : Obligations.CurrentModeGovernsNoOperation :=
  fun _ _ _ hcsr hcpu => exec_agree hcsr hcpu

end Sys2Proof.Machine
end

section
/-! Doing an operation again (R55): a write leaves the state it left before, a read without a side effect answers
what it answered before. -/

namespace Sys2Proof.Machine

section Again

variable {s t : State} {i : Instr} {op : State → State}

/-- Doing `op` a second time, after it was done from `s`, only answers, unless the first time ended with an abort. -/
structure Repeats (op : State → State) (s : State) : Prop where
  config_eq : (op s).config = s.config
  again : (op s).aborted = false → ∃ r, op (op s) = (op s).answer r

/-- Both times run in the one configuration, so what `op` does under that one decides. -/
theorem Repeats.congr {op' : State → State} (h : Repeats op' s) (hop : ∀ u, u.config = s.config → op u = op' u) :
    Repeats op s := by
  obtain ⟨hc, hagain⟩ := h
  rw [← hop s rfl] at hc hagain
  rw [← hop _ hc] at hagain
  exact ⟨hc, hagain⟩

theorem repeats_answer (r : Response) : Repeats (·.answer r) s := ⟨rfl, fun _ => ⟨r, rfl⟩⟩

theorem repeats_abort (e : ProgrammerError) : Repeats (·.abort e) s := ⟨rfl, nofun⟩

theorem repeats_withMode {p : Nat} {k : State → PrivMode → State} (hk : ∀ m, Repeats (k · m) s) :
    Repeats (fun u => u.withMode p (k u)) s := by
  cases hm : modeOfCode s.config p with
  | none => exact (repeats_abort .badPrivilegeOperand).congr fun u hu => by simp only [State.withMode, hu, hm]
  | some m => exact (hk m).congr fun u hu => by simp only [State.withMode, hu, hm]

theorem repeats_withCsr {a : CsrAddr} {k : State → CsrRecord → State} (hk : ∀ e, Repeats (k · e) s) :
    Repeats (fun u => u.withCsr a (k u)) s := by
  cases he : s.config.csr? a with
  | none => exact (repeats_answer (.undefinedCsr a)).congr fun u hu => by simp only [State.withCsr, hu, he]
  | some e => exact (hk e).congr fun u hu => by simp only [State.withCsr, hu, he]

/-- R148: a gated access repeats as the access does, the gate being a matter of the configuration and the operand. -/
theorem repeats_gated {a : CsrAddr} {p : Nat} {k : State → CsrRecord → State} (hk : ∀ e, Repeats (k · e) s) :
    Repeats (fun u => u.gated a p (k u)) s := by
  refine repeats_withMode fun m => repeats_withCsr fun e => ?_
  by_cases hr : rank m < rank e.minPrivilege
  · exact (repeats_answer _).congr fun _ _ => if_pos hr
  · exact (hk e).congr fun _ _ => if_neg hr

theorem setSlot_setSlot (n : Fin 32) (v w : Word) : (s.setSlot n v).setSlot n w = s.setSlot n w := by
  cases n using Fin.cases with
  | zero => rfl
  | succ k => simp only [setSlot_succ, Vector.set_set]

theorem setCsr_setCsr (a : CsrAddr) (v w : Word) : (s.setCsr a v).setCsr a w = s.setCsr a w := by
  simp only [State.setCsr, bankSet_bankSet]

theorem setSlot_done (n : Fin 32) (v : Word) : s.done.setSlot n v = (s.setSlot n v).done := by
  unfold State.setSlot
  split <;> rfl

theorem repeats_opSet (n : Nat) (v : Word) : Repeats (opSet · n v) s := by
  by_cases hn : n < 32
  · have hop : Repeats (fun u => (u.setSlot ⟨n, hn⟩ v).done) s := by
      refine ⟨setSlot_config s _ v, fun _ => ⟨.ok none, ?_⟩⟩
      rw [setSlot_done, setSlot_setSlot]
      rfl
    exact hop.congr fun _ _ => dif_pos hn
  · exact (repeats_abort _).congr fun _ _ => dif_neg hn

/-- A cell written from its own value repeats where the new value gives itself again. -/
theorem repeats_setCsr_cell {a : CsrAddr} {e : CsrRecord} {f : Word → Word} (hf : ∀ w, f (f w) = f w) :
    Repeats (fun u => (u.setCsr a (f (u.cell a e))).done) s := by
  have hcell : (s.setCsr a (f (s.cell a e))).done.cell a e = f (s.cell a e) := cell_setCsr_same s a _ e
  refine ⟨rfl, fun _ => ⟨.ok none, ?_⟩⟩
  rw [hcell, hf]
  exact congrArg (State.done ∘ State.done) (setCsr_setCsr a _ _)

/-- R142: the merge with the same value, again, gives the merged value. -/
theorem repeats_opCsrWrite (a : CsrAddr) (p : Nat) (v : Word) : Repeats (opCsrWrite · a p v) s :=
  repeats_gated fun e => repeats_setCsr_cell (f := (maskedWrite · e.writeMask v)) fun w => maskedWrite_again w _ v

theorem repeats_opSetPriv (code : Nat) : Repeats (opSetPriv · code) s :=
  repeats_withMode fun _ => ⟨rfl, fun _ => ⟨.ok none, rfl⟩⟩

theorem repeats_opCsrReset : Repeats opCsrReset s := ⟨rfl, fun _ => ⟨.ok none, rfl⟩⟩

theorem repeats_setPc (v : Word) : Repeats (fun u => { u with pc := v }.done) s := ⟨rfl, fun _ => ⟨.ok none, rfl⟩⟩

theorem running_of_whileRunning (h : (s.whileRunning t).aborted = false) : s.aborted = false := by
  cases hs : s.aborted with
  | false => rfl
  | true =>
    rw [whileRunning_aborted hs] at h
    cases h

/-- R204: where the first time left the block aborted, the second time only answers that it is. -/
theorem Repeats.exec_again (h : Repeats op s) (hexec : ∀ u, exec i u = .next (u.whileRunning (op u)))
    (ht : exec i s = .next t) : ∃ r, exec i t = .next (t.answer r) := by
  obtain rfl : s.whileRunning (op s) = t := Host.Outcome.next.inj ((hexec s).symm.trans ht)
  rw [hexec]
  rcases Bool.eq_false_or_eq_true (s.whileRunning (op s)).aborted with hab | hrun
  · exact ⟨_, congrArg _ ((whileRunning_aborted hab _).trans (abort_of_aborted hab _))⟩
  · have hs := running_of_whileRunning hrun
    rw [whileRunning_running hs] at hrun ⊢
    rw [whileRunning_running hrun]
    obtain ⟨r, hr⟩ := h.again hrun
    exact ⟨r, congrArg _ hr⟩

/-- An operation that answers `r` in `s`, whatever has been answered before, answers `r` again. -/
theorem exec_again_of_answers (r : Response) (hs : s.aborted = false)
    (hexec : ∀ u, exec i u = .next (u.whileRunning (op u)))
    (hop : ∀ l, op { s with responses := l } = State.answer { s with responses := l } r) :
    ∃ r, exec i s = .next (s.answer r) ∧ exec i (s.answer r) = .next ((s.answer r).answer r) := by
  refine ⟨r, ?_, ?_⟩
  · rw [hexec, whileRunning_running hs]
    exact congrArg _ (hop s.responses)
  · rw [hexec, whileRunning_running (s := s.answer r) hs]
    exact congrArg _ (hop (r :: s.responses))

theorem opExplicitRead_answers (s : State) (a : CsrAddr) :
    ∃ r, ∀ l, opExplicitRead { s with responses := l } a = State.answer { s with responses := l } r := by
  unfold opExplicitRead State.withCsr
  cases he : s.config.csr? a with
  | none => exact ⟨.undefinedCsr a, fun _ => by simp only [he]⟩
  | some e => exact ⟨.ok (some (.word (s.cell a e))), fun _ => by simp only [he]; rfl⟩

end Again

/-- Settles O40: each write repeats, and a second `CPU.reset` resets to the same values. -/
theorem writesAreIdempotent : Obligations.WritesAreIdempotent := by
  intro s t i ht hi
  suffices h : ∃ r, exec i t = .next (t.answer r) by
    obtain ⟨r, hr⟩ := h
    exact ⟨_, hr, rfl⟩
  rcases hi with ⟨n, v, hi⟩ | ⟨v, rfl⟩ | ⟨a, p, v, hi⟩ | ⟨code, hi⟩ | rfl | rfl | rfl
  · rcases hi with rfl | rfl <;> exact (repeats_opSet n v).exec_again (fun _ => rfl) ht
  · exact (repeats_setPc v).exec_again (fun _ => rfl) ht
  · rcases hi with rfl | rfl <;> exact (repeats_opCsrWrite a p v).exec_again (fun _ => rfl) ht
  · rcases hi with rfl | rfl <;> exact (repeats_opSetPriv code).exec_again (fun _ => rfl) ht
  · exact repeats_opCsrReset.exec_again (fun _ => rfl) ht
  · exact repeats_opCsrReset.exec_again (fun _ => rfl) ht
  · obtain rfl : s.resetBlock.done = t := Host.Outcome.next.inj ht
    exact ⟨.ok none, rfl⟩

/-- Settles O41: with legal operands each of these reads answers, and its answer is not a matter of earlier ones. -/
theorem inspectionIsRepeatable : Obligations.InspectionIsRepeatable := by
  intro s i hs hi
  rcases hi with ⟨r, rfl | rfl⟩ | ⟨r, n, hn, rfl⟩ | ⟨r, hi, lo, hl, hh, rfl⟩ | ⟨n, hn, hi⟩ | rfl | rfl | rfl | rfl |
    ⟨a, hi⟩
  · exact exec_again_of_answers (.ok (some (.word r))) hs (fun _ => rfl) fun _ => rfl
  · exact exec_again_of_answers (.ok (some (.signedWord r))) hs (fun _ => rfl) fun _ => rfl
  · exact exec_again_of_answers (.ok (some (.bit (r.getLsbD n)))) hs (fun _ => rfl)
      fun _ => if_neg (Nat.not_lt.mpr hn)
  · exact exec_again_of_answers (.ok (some (.field (fieldWidth hi lo) (fieldOf r hi lo)))) hs (fun _ => rfl)
      fun _ => by rw [opBits, rangeError_legal ⟨hl, hh⟩]; rfl
  · have hn' : n < 32 := Nat.lt_succ_of_le hn
    rcases hi with rfl | rfl <;>
      exact exec_again_of_answers (.ok (some (.word (s.slot ⟨n, hn'⟩)))) hs (fun _ => rfl) fun _ => dif_pos hn'
  · exact exec_again_of_answers (.ok (some (.word s.pc))) hs (fun _ => rfl) fun _ => rfl
  · exact exec_again_of_answers (.ok (some (.count s.icount))) hs (fun _ => rfl) fun _ => rfl
  · exact exec_again_of_answers (.ok (some (.mode s.priv))) hs (fun _ => rfl) fun _ => rfl
  · exact exec_again_of_answers (.ok (some (.mode s.priv))) hs (fun _ => rfl) fun _ => rfl
  · obtain ⟨r, hr⟩ := opExplicitRead_answers s a
    rcases hi with rfl | rfl <;> exact exec_again_of_answers r hs (fun _ => rfl) hr

end Sys2Proof.Machine
end

section
/-! Request frames and the requests they carry. Per format of R73: the operand bytes its reader accepts are those of
fields that fit their containers, and it gives back these fields. From that, row by row of the operation map (R72), the
two directions of the agreement of `decode` and `encode`. -/

namespace Sys2Proof

-- One integer field and its container

theorem fitsByte_toNat (b : Byte) : fitsByte b.toNat = true := decide_eq_true b.isLt

theorem toNat_byteOfNat_of_fits {n : Nat} (h : fitsByte n = true) : (byteOfNat n).toNat = n :=
  toNat_byteOfNat (of_decide_eq_true h)

theorem fitsByte_toNat_and (b c : Byte) : (fitsByte b.toNat && fitsByte c.toNat) = true := by
  rw [fitsByte_toNat, fitsByte_toNat, Bool.and_self]

-- The formats: what each reader accepts, and what it reads

section Formats

variable {bs : List Byte} {i : Instr}

theorem readF0_eq_some {j : Instr} : readF0 j bs = some i ↔ bs = [] ∧ j = i := by
  constructor
  · intro h
    unfold readF0 at h
    split at h <;> cases h
    exact ⟨rfl, rfl⟩
  · rintro ⟨rfl, rfl⟩
    rfl

theorem readFI_eq_some {k : Nat → Instr} :
    readFI k bs = some i ↔ ∃ n, fitsByte n = true ∧ [byteOfNat n] = bs ∧ k n = i := by
  constructor
  · intro h
    unfold readFI at h
    split at h <;> cases h
    exact ⟨_, fitsByte_toNat _, by rw [byteOfNat_toNat], rfl⟩
  · rintro ⟨n, hn, rfl, rfl⟩
    simp only [readFI, toNat_byteOfNat_of_fits hn]

/-- The format of a privilege operand has the bytes of the format of an index. -/
theorem readFP_eq_some {k : Nat → Instr} :
    readFP k bs = some i ↔ ∃ m, fitsByte m = true ∧ [byteOfNat m] = bs ∧ k m = i := readFI_eq_some

theorem readFV_eq_some {k : Word → Instr} : readFV k bs = some i ↔ ∃ v, bytesOfWord v = bs ∧ k v = i := by
  constructor
  · intro h
    unfold readFV at h
    split at h <;> cases h
    exact ⟨_, bytes_wordOfBytes _ _ _ _, rfl⟩
  · rintro ⟨v, rfl, rfl⟩
    simp only [readFV, bytesOfWord, wordOfBytes_bytes]

/-- The format of one pattern operand has the bytes of the format of a value. -/
theorem readFR_eq_some {k : Word → Instr} : readFR k bs = some i ↔ ∃ r, bytesOfWord r = bs ∧ k r = i :=
  readFV_eq_some

theorem readFIV_eq_some {k : Nat → Word → Instr} :
    readFIV k bs = some i ↔ ∃ n v, fitsByte n = true ∧ byteOfNat n :: bytesOfWord v = bs ∧ k n v = i := by
  constructor
  · intro h
    unfold readFIV at h
    split at h <;> cases h
    exact ⟨_, _, fitsByte_toNat _, by rw [byteOfNat_toNat, bytes_wordOfBytes], rfl⟩
  · rintro ⟨n, v, hn, rfl, rfl⟩
    simp only [readFIV, bytesOfWord, wordOfBytes_bytes, toNat_byteOfNat_of_fits hn]

theorem readFA_eq_some {k : CsrAddr → Instr} : readFA k bs = some i ↔ ∃ a, bytesOfAddr a = bs ∧ k a = i := by
  constructor
  · intro h
    unfold readFA at h
    split at h <;> cases h
    exact ⟨_, bytes_addrOfBytes _ _, rfl⟩
  · rintro ⟨a, rfl, rfl⟩
    simp only [readFA, bytesOfAddr, addrOfBytes_bytes]

theorem readFAP_eq_some {k : CsrAddr → Nat → Instr} :
    readFAP k bs = some i ↔ ∃ a p, fitsByte p = true ∧ bytesOfAddr a ++ [byteOfNat p] = bs ∧ k a p = i := by
  constructor
  · intro h
    unfold readFAP at h
    split at h <;> cases h
    exact ⟨_, _, fitsByte_toNat _, by rw [bytes_addrOfBytes, byteOfNat_toNat]; rfl, rfl⟩
  · rintro ⟨a, p, hp, rfl, rfl⟩
    simp only [readFAP, bytesOfAddr, List.cons_append, List.nil_append, addrOfBytes_bytes,
      toNat_byteOfNat_of_fits hp]

theorem readFAPV_eq_some {k : CsrAddr → Nat → Word → Instr} :
    readFAPV k bs = some i ↔
      ∃ a p v, fitsByte p = true ∧ bytesOfAddr a ++ [byteOfNat p] ++ bytesOfWord v = bs ∧ k a p v = i := by
  constructor
  · intro h
    unfold readFAPV at h
    split at h <;> cases h
    exact ⟨_, _, _, fitsByte_toNat _, by rw [bytes_addrOfBytes, byteOfNat_toNat, bytes_wordOfBytes]; rfl, rfl⟩
  · rintro ⟨a, p, v, hp, rfl, rfl⟩
    simp only [readFAPV, bytesOfAddr, bytesOfWord, List.cons_append, List.nil_append, addrOfBytes_bytes,
      wordOfBytes_bytes, toNat_byteOfNat_of_fits hp]

theorem readFRB_eq_some {k : Word → Nat → Instr} :
    readFRB k bs = some i ↔ ∃ r n, fitsByte n = true ∧ bytesOfWord r ++ [byteOfNat n] = bs ∧ k r n = i := by
  constructor
  · intro h
    unfold readFRB at h
    split at h <;> cases h
    exact ⟨_, _, fitsByte_toNat _, by rw [bytes_wordOfBytes, byteOfNat_toNat]; rfl, rfl⟩
  · rintro ⟨r, n, hn, rfl, rfl⟩
    simp only [readFRB, bytesOfWord, List.cons_append, List.nil_append, wordOfBytes_bytes,
      toNat_byteOfNat_of_fits hn]

theorem readFRHL_eq_some {k : Word → Nat → Nat → Instr} :
    readFRHL k bs = some i ↔
      ∃ r hi lo, (fitsByte hi && fitsByte lo) = true ∧ bytesOfWord r ++ [byteOfNat hi, byteOfNat lo] = bs ∧
        k r hi lo = i := by
  constructor
  · intro h
    unfold readFRHL at h
    split at h <;> cases h
    exact ⟨_, _, _, fitsByte_toNat_and _ _,
      by rw [bytes_wordOfBytes, byteOfNat_toNat, byteOfNat_toNat]; rfl, rfl⟩
  · rintro ⟨r, hi, lo, hf, rfl, rfl⟩
    obtain ⟨hh, hl⟩ := Bool.and_eq_true_iff.mp hf
    simp only [readFRHL, bytesOfWord, List.cons_append, List.nil_append, wordOfBytes_bytes,
      toNat_byteOfNat_of_fits hh, toNat_byteOfNat_of_fits hl]

theorem readFRV_eq_some {k : Word → Word → Instr} :
    readFRV k bs = some i ↔ ∃ r v, bytesOfWord r ++ bytesOfWord v = bs ∧ k r v = i := by
  constructor
  · intro h
    unfold readFRV at h
    split at h <;> cases h
    exact ⟨_, _, by rw [bytes_wordOfBytes, bytes_wordOfBytes]; rfl, rfl⟩
  · rintro ⟨r, v, rfl, rfl⟩
    simp only [readFRV, bytesOfWord, List.cons_append, List.nil_append, wordOfBytes_bytes]

theorem readFRHLV_eq_some {k : Word → Nat → Nat → Word → Instr} :
    readFRHLV k bs = some i ↔
      ∃ r hi lo v, (fitsByte hi && fitsByte lo) = true ∧
        bytesOfWord r ++ [byteOfNat hi, byteOfNat lo] ++ bytesOfWord v = bs ∧ k r hi lo v = i := by
  constructor
  · intro h
    unfold readFRHLV at h
    split at h <;> cases h
    exact ⟨_, _, _, _, fitsByte_toNat_and _ _,
      by rw [bytes_wordOfBytes, byteOfNat_toNat, byteOfNat_toNat, bytes_wordOfBytes]; rfl, rfl⟩
  · rintro ⟨r, hi, lo, v, hf, rfl, rfl⟩
    obtain ⟨hh, hl⟩ := Bool.and_eq_true_iff.mp hf
    simp only [readFRHLV, bytesOfWord, List.cons_append, List.nil_append, wordOfBytes_bytes,
      toNat_byteOfNat_of_fits hh, toNat_byteOfNat_of_fits hl]

end Formats

-- The operation map

theorem decode_cons_eq_ok {op : Byte} {bs : List Byte} {i : Instr} :
    decode (op :: bs) = .ok i ↔ ∃ read, operandReader op.toNat = some read ∧ read bs = some i := by
  constructor
  · intro h
    simp only [decode] at h
    split at h
    · cases h
    next read hc =>
      split at h <;> cases h
      next hr => exact ⟨read, hc, hr⟩
  · rintro ⟨read, hc, hr⟩
    simp only [decode, hc, hr]

/-- The reader of a row of the map accepts only the frames, under the row's code, of the row's operation. -/
theorem encode_of_operandReader {c : Nat} {read : List Byte → Option Instr} {bs : List Byte} {i : Instr}
    (hc : operandReader c = some read) (h : read bs = some i) :
    i.wellFormed = true ∧ encode i = byteOfNat c :: bs := by
  unfold operandReader at hc
  split at hc <;> cases hc
  · obtain ⟨r, rfl, rfl⟩ := readFR_eq_some.mp h; exact ⟨rfl, rfl⟩
  · obtain ⟨r, rfl, rfl⟩ := readFR_eq_some.mp h; exact ⟨rfl, rfl⟩
  · obtain ⟨r, n, hn, rfl, rfl⟩ := readFRB_eq_some.mp h; exact ⟨hn, rfl⟩
  · obtain ⟨r, hi, lo, hf, rfl, rfl⟩ := readFRHL_eq_some.mp h; exact ⟨hf, rfl⟩
  · obtain ⟨r, v, rfl, rfl⟩ := readFRV_eq_some.mp h; exact ⟨rfl, rfl⟩
  · obtain ⟨r, hi, lo, v, hf, rfl, rfl⟩ := readFRHLV_eq_some.mp h; exact ⟨hf, rfl⟩
  · obtain ⟨n, hn, rfl, rfl⟩ := readFI_eq_some.mp h; exact ⟨hn, rfl⟩
  · obtain ⟨n, v, hn, rfl, rfl⟩ := readFIV_eq_some.mp h; exact ⟨hn, rfl⟩
  · obtain ⟨a, rfl, rfl⟩ := readFA_eq_some.mp h; exact ⟨rfl, rfl⟩
  · obtain ⟨a, p, hp, rfl, rfl⟩ := readFAP_eq_some.mp h; exact ⟨hp, rfl⟩
  · obtain ⟨a, p, v, hp, rfl, rfl⟩ := readFAPV_eq_some.mp h; exact ⟨hp, rfl⟩
  · obtain ⟨rfl, rfl⟩ := readF0_eq_some.mp h; exact ⟨rfl, rfl⟩
  · obtain ⟨rfl, rfl⟩ := readF0_eq_some.mp h; exact ⟨rfl, rfl⟩
  · obtain ⟨m, hm, rfl, rfl⟩ := readFP_eq_some.mp h; exact ⟨hm, rfl⟩
  · obtain ⟨rfl, rfl⟩ := readF0_eq_some.mp h; exact ⟨rfl, rfl⟩
  · obtain ⟨rfl, rfl⟩ := readF0_eq_some.mp h; exact ⟨rfl, rfl⟩
  · obtain ⟨v, rfl, rfl⟩ := readFV_eq_some.mp h; exact ⟨rfl, rfl⟩
  · obtain ⟨rfl, rfl⟩ := readF0_eq_some.mp h; exact ⟨rfl, rfl⟩
  · obtain ⟨rfl, rfl⟩ := readF0_eq_some.mp h; exact ⟨rfl, rfl⟩
  · obtain ⟨n, hn, rfl, rfl⟩ := readFI_eq_some.mp h; exact ⟨hn, rfl⟩
  · obtain ⟨n, v, hn, rfl, rfl⟩ := readFIV_eq_some.mp h; exact ⟨hn, rfl⟩
  · obtain ⟨a, rfl, rfl⟩ := readFA_eq_some.mp h; exact ⟨rfl, rfl⟩
  · obtain ⟨a, p, hp, rfl, rfl⟩ := readFAP_eq_some.mp h; exact ⟨hp, rfl⟩
  · obtain ⟨a, p, v, hp, rfl, rfl⟩ := readFAPV_eq_some.mp h; exact ⟨hp, rfl⟩
  · obtain ⟨rfl, rfl⟩ := readF0_eq_some.mp h; exact ⟨rfl, rfl⟩
  · obtain ⟨rfl, rfl⟩ := readF0_eq_some.mp h; exact ⟨rfl, rfl⟩
  · obtain ⟨m, hm, rfl, rfl⟩ := readFP_eq_some.mp h; exact ⟨hm, rfl⟩

/-- Settles O5: each operation's row of the map, and its format's reader on the bytes of its fields. -/
theorem decodeOfEncodeIsTheRequest : Obligations.DecodeOfEncodeIsTheRequest := by
  intro i hw
  cases i with
  | regRead r | regAsSigned r => exact decode_cons_eq_ok.mpr ⟨_, rfl, readFR_eq_some.mpr ⟨r, rfl, rfl⟩⟩
  | regBit r n => exact decode_cons_eq_ok.mpr ⟨_, rfl, readFRB_eq_some.mpr ⟨r, n, hw, rfl, rfl⟩⟩
  | regBits r hi lo => exact decode_cons_eq_ok.mpr ⟨_, rfl, readFRHL_eq_some.mpr ⟨r, hi, lo, hw, rfl, rfl⟩⟩
  | regWrite r v => exact decode_cons_eq_ok.mpr ⟨_, rfl, readFRV_eq_some.mpr ⟨r, v, rfl, rfl⟩⟩
  | regWriteBits r hi lo v =>
    exact decode_cons_eq_ok.mpr ⟨_, rfl, readFRHLV_eq_some.mpr ⟨r, hi, lo, v, hw, rfl, rfl⟩⟩
  | rfGet n | cpuGetR n => exact decode_cons_eq_ok.mpr ⟨_, rfl, readFI_eq_some.mpr ⟨n, hw, rfl, rfl⟩⟩
  | csrSetPriv m | cpuSetPriv m => exact decode_cons_eq_ok.mpr ⟨_, rfl, readFP_eq_some.mpr ⟨m, hw, rfl, rfl⟩⟩
  | rfSet n v | cpuSetR n v => exact decode_cons_eq_ok.mpr ⟨_, rfl, readFIV_eq_some.mpr ⟨n, v, hw, rfl, rfl⟩⟩
  | csrExplicitRead a | cpuCsrExplicitRead a =>
    exact decode_cons_eq_ok.mpr ⟨_, rfl, readFA_eq_some.mpr ⟨a, rfl, rfl⟩⟩
  | csrRead a p | cpuCsrRead a p =>
    exact decode_cons_eq_ok.mpr ⟨_, rfl, readFAP_eq_some.mpr ⟨a, p, hw, rfl, rfl⟩⟩
  | csrWrite a p v | cpuCsrWrite a p v =>
    exact decode_cons_eq_ok.mpr ⟨_, rfl, readFAPV_eq_some.mpr ⟨a, p, v, hw, rfl, rfl⟩⟩
  | cpuSetPc v => exact decode_cons_eq_ok.mpr ⟨_, rfl, readFV_eq_some.mpr ⟨v, rfl, rfl⟩⟩
  | csrReset | csrGetPriv | cpuReset | cpuGetPc | cpuGetInstCount | cpuIncrementInstCount | cpuCsrReset
  | cpuGetPriv => exact decode_cons_eq_ok.mpr ⟨_, rfl, readF0_eq_some.mpr ⟨rfl, rfl⟩⟩

/-- Settles O6: a frame that decodes is not empty, and its op code selects the reader that accepted the rest of it. -/
theorem decodedFrameIsTheEncoding : Obligations.DecodedFrameIsTheEncoding := by
  intro frame i h
  cases frame with
  | nil => cases h
  | cons op bs =>
    obtain ⟨read, hc, hr⟩ := decode_cons_eq_ok.mp h
    have he := encode_of_operandReader hc hr
    rwa [byteOfNat_toNat] at he

/-- Settles O7: each of the frames is the encoding of its operation, whose operands fit their containers. -/
theorem writtenOutFramesDecode : Obligations.WrittenOutFramesDecode :=
  ⟨decodeOfEncodeIsTheRequest (.regBit 0x00000000#32 3) rfl,
    decodeOfEncodeIsTheRequest (.regWriteBits 0x00000080#32 12 11 0x00000001#32) rfl,
    decodeOfEncodeIsTheRequest (.rfGet 7) rfl,
    decodeOfEncodeIsTheRequest (.cpuSetR 1 0x98765432#32) rfl,
    decodeOfEncodeIsTheRequest (.csrWrite 0x0140#16 3 0x00001234#32) rfl,
    decodeOfEncodeIsTheRequest (.cpuSetPriv 1) rfl,
    decodeOfEncodeIsTheRequest (.cpuSetPc 0x00002000#32) rfl,
    decodeOfEncodeIsTheRequest .cpuReset rfl⟩

end Sys2Proof

namespace Sys2Proof.Machine

/-- Settles O4: the rule for a non-empty queue, at each of the two decode errors that are no request. -/
theorem malformedFrameStops : Obligations.MalformedFrameStops := by
  intro s frame rest hq hd
  rw [step_of_cons hq]
  rcases hd with hd | ⟨op, hd⟩
  · rw [hd]
    rfl
  · rw [hd]
    rfl

/-- The mode a code names, as the conditions of R75 on the code. -/
theorem modeOfCode_eq_ite (c : Config) (code : Nat) :
    modeOfCode c code =
      if code = 0 ∧ c.hasUser = true then some .user else if code = 1 then some .supervisor
      else if code = 3 then some .machine else none := by
  unfold modeOfCode
  split
  · cases c.hasUser <;> rfl
  · rfl
  · rfl
  case _ h0 h1 h3 => rw [if_neg fun h => h0 h.1, if_neg h1, if_neg h3]

/-- Settles O8: the codes by `modeOfCode_eq_ite`; the ranks and the codes of the modes are their definitions. -/
theorem privilegeOperandCodes : Obligations.PrivilegeOperandCodes :=
  fun c code => ⟨modeOfCode_eq_ite c code, rfl, rfl, rfl, rfl, rfl, rfl⟩

end Sys2Proof.Machine
end

section
/-! The Bit-field Register (40_bitfield_register.md): what each operation answers in a running state, the fields those
answers speak of as integers and bit by bit, and the laws of R106 between the answers. -/

namespace Sys2Proof.Machine

section Running

variable {s : State} (hs : s.aborted = false)
include hs

/-- R100. -/
theorem exec_regRead (r : Word) : exec (.regRead r) s = .next (s.returns (.word r)) :=
  congrArg Host.Outcome.next (whileRunning_running hs _)

/-- R101. -/
theorem exec_regAsSigned (r : Word) : exec (.regAsSigned r) s = .next (s.returns (.signedWord r)) :=
  congrArg Host.Outcome.next (whileRunning_running hs _)

/-- R104. -/
theorem exec_regWrite (r v : Word) : exec (.regWrite r v) s = .next (s.returns (.word v)) :=
  congrArg Host.Outcome.next (whileRunning_running hs _)

/-- R102, with the check of the position. -/
theorem exec_regBit (r : Word) (i : Nat) :
    exec (.regBit r i) s =
      .next (if 31 < i then s.abort .bitPositionOutOfRange else s.returns (.bit (r.getLsbD i))) :=
  congrArg Host.Outcome.next (whileRunning_running hs _)

/-- R102: a position within the word. -/
theorem exec_regBit_of_le (r : Word) {i : Nat} (hi : i ≤ 31) :
    exec (.regBit r i) s = .next (s.returns (.bit (r.getLsbD i))) := by
  rw [exec_regBit hs, if_neg (Nat.not_lt.mpr hi)]

/-- R103. -/
theorem exec_regBits (r : Word) (hi lo : Nat) : exec (.regBits r hi lo) s = .next (opBits s r hi lo) :=
  congrArg Host.Outcome.next (whileRunning_running hs _)

/-- R103: a legal range. -/
theorem exec_regBits_of_legal (r : Word) {hi lo : Nat} (h : LegalRange hi lo) :
    exec (.regBits r hi lo) s = .next (s.returns (.field (fieldWidth hi lo) (fieldOf r hi lo))) := by
  rw [exec_regBits hs, opBits, rangeError_legal h]

/-- R103: a range with an error. -/
theorem exec_regBits_of_rangeError (r : Word) {hi lo : Nat} {e : ProgrammerError} (h : rangeError hi lo = some e) :
    exec (.regBits r hi lo) s = .next (s.abort e) := by
  rw [exec_regBits hs, opBits, h]

/-- R105. -/
theorem exec_regWriteBits (r v : Word) (hi lo : Nat) :
    exec (.regWriteBits r hi lo v) s = .next (opWriteBits s r hi lo v) :=
  congrArg Host.Outcome.next (whileRunning_running hs _)

/-- R105: a legal range, with the check of the value. -/
theorem exec_regWriteBits_of_legal (r v : Word) {hi lo : Nat} (h : LegalRange hi lo) :
    exec (.regWriteBits r hi lo v) s =
      .next (if 2 ^ (hi - lo + 1) ≤ v.toNat then s.abort .valueDoesNotFit
        else s.returns (.word (withField r hi lo v))) := by
  rw [exec_regWriteBits hs, opWriteBits, rangeError_legal h]
  rfl

/-- R105: a legal range and a value that fits it. -/
theorem exec_regWriteBits_of_fits (r : Word) {v : Word} {hi lo : Nat} (h : LegalRange hi lo)
    (hv : v.toNat < 2 ^ (hi - lo + 1)) :
    exec (.regWriteBits r hi lo v) s = .next (s.returns (.word (withField r hi lo v))) := by
  rw [exec_regWriteBits_of_legal hs r v h, if_neg (Nat.not_le.mpr hv)]

/-- R105: a range with an error. -/
theorem exec_regWriteBits_of_rangeError (r v : Word) {hi lo : Nat} {e : ProgrammerError}
    (h : rangeError hi lo = some e) : exec (.regWriteBits r hi lo v) s = .next (s.abort e) := by
  rw [exec_regWriteBits hs, opWriteBits, h]

end Running

@[simp] theorem valueOf_returns (s : State) (v : Value) : valueOf (.next (s.returns v)) = some v := rfl

-- The answers as integers

/-- R102: the bit as an integer. -/
theorem bits_bit_getLsbD (r : Word) (i : Nat) : (Value.bit (r.getLsbD i)).bits = (r.toNat >>> i) % 2 := by
  calc (Value.bit (r.getLsbD i)).bits = (r.toNat.testBit i).toNat := by
        rw [Value.bits, BitVec.getLsbD]
        cases r.toNat.testBit i <;> rfl
    _ = (r.toNat >>> i) % 2 := by rw [Nat.toNat_testBit, Nat.shiftRight_eq_div_pow]

/-- R101: the signed view by the sign bit. -/
theorem number_signedWord (r : Word) :
    (Value.signedWord r).number =
      if r.getLsbD 31 = false then (r.toNat : Int) else (r.toNat : Int) - 2 ^ 32 := by
  rw [Value.number, BitVec.toInt_eq_msb_cond, BitVec.msb_eq_getLsbD_last]
  cases r.getLsbD 31 <;> rfl

/-- R106 (g): the signed and the unsigned view agree modulo `2^32`. -/
theorem number_signedWord_emod (r : Word) : (Value.signedWord r).number % 2 ^ 32 = (r.toNat : Int) := by
  have hr : r.toNat < 2 ^ 32 := r.isLt
  rw [number_signedWord]
  split <;> omega

-- A field and its replacement

/-- A field fits its width. -/
theorem toNat_fieldOf_lt (r : Word) {hi lo : Nat} (h : LegalRange hi lo) :
    (fieldOf r hi lo).toNat < 2 ^ (hi - lo + 1) := by
  rw [toNat_fieldOf r h.1 h.2]
  exact Nat.mod_lt _ (by positivity)

/-- A field, bit by bit (R8, R77): the bits of the range, moved down to bit 0, and zeros above them. -/
theorem getLsbD_fieldOf (r : Word) {hi lo : Nat} (j : Nat) (h : LegalRange hi lo) :
    (fieldOf r hi lo).getLsbD j = (decide (j < hi - lo + 1) && r.getLsbD (lo + j)) := by
  rw [BitVec.getLsbD, toNat_fieldOf r h.1 h.2, Nat.testBit_mod_two_pow, Nat.testBit_shiftRight, BitVec.getLsbD]

/-- R106 (e): the full field is the word. -/
theorem fieldOf_full (r : Word) : fieldOf r 31 0 = r := by
  apply BitVec.eq_of_toNat_eq
  rw [toNat_fieldOf r (by decide) (by decide)]
  exact Nat.mod_eq_of_lt r.isLt

/-- R106 (d): a field of one bit is the bit. -/
theorem toNat_fieldOf_one (r : Word) {i : Nat} (hi : i ≤ 31) :
    (fieldOf r i i).toNat = (Value.bit (r.getLsbD i)).bits := by
  rw [toNat_fieldOf r le_rfl hi, bits_bit_getLsbD, Nat.sub_self, Nat.zero_add, Nat.pow_one]

/-- R106 (b): the field written is the field read. -/
theorem fieldOf_withField (r : Word) {f : Word} {hi lo : Nat} (h : LegalRange hi lo)
    (hf : f.toNat < 2 ^ (hi - lo + 1)) : fieldOf (withField r hi lo f) hi lo = f := by
  obtain ⟨hl, hh⟩ := h
  apply BitVec.eq_of_getLsbD_eq
  intro j _
  rw [getLsbD_fieldOf _ j ⟨hl, hh⟩]
  by_cases hj : j < hi - lo + 1
  · rw [getLsbD_withField r f hl hh (by omega), if_pos (by omega), Nat.add_sub_cancel_left, decide_eq_true hj,
      Bool.true_and]
  · have hz : f.getLsbD j = false :=
      Nat.testBit_lt_two_pow (hf.trans_le (Nat.pow_le_pow_right (by decide) (Nat.not_lt.mp hj)))
    rw [hz, decide_eq_false hj, Bool.false_and]

/-- R106 (f): a field written back changes nothing. -/
theorem withField_fieldOf (r : Word) {hi lo : Nat} (h : LegalRange hi lo) :
    withField r hi lo (fieldOf r hi lo) = r := by
  apply BitVec.eq_of_getLsbD_eq
  intro j hj
  rw [getLsbD_withField r _ h.1 h.2 hj]
  split
  case isTrue hin =>
    rw [getLsbD_fieldOf r _ h, decide_eq_true (by omega), Bool.true_and, Nat.add_sub_cancel' hin.1]
  case isFalse => rfl

/-- R106 (c): a bit outside the range is kept. -/
theorem getLsbD_withField_outside (r f : Word) {hi lo j : Nat} (h : LegalRange hi lo) (hj : j ≤ 31)
    (hout : j < lo ∨ hi < j) : (withField r hi lo f).getLsbD j = r.getLsbD j := by
  rw [getLsbD_withField r f h.1 h.2 (Nat.lt_succ_of_le hj), if_neg (by omega)]

-- The obligations

/-- Settles O10: what the operation answers; the bits and the width of a word are their definitions. -/
theorem regReadReturnsTheWord : Obligations.RegReadReturnsTheWord :=
  fun _ r hs => ⟨exec_regRead hs r, rfl, rfl⟩

/-- Settles O11: the answer is the signed view of the word. -/
theorem regAsSignedReadsTwosComplement : Obligations.RegAsSignedReadsTwosComplement :=
  fun _ r hs => ⟨.signedWord r, exec_regAsSigned hs r, rfl, rfl, number_signedWord r⟩

/-- Settles O12: the two sides of the check of the position. -/
theorem regBitReturnsTheBit : Obligations.RegBitReturnsTheBit := by
  intro s r i hs
  refine ⟨fun hi => ⟨.bit (r.getLsbD i), exec_regBit_of_le hs r hi, rfl, bits_bit_getLsbD r i⟩, fun hi => ?_⟩
  rw [exec_regBit hs, if_pos (Nat.lt_of_succ_le hi)]
  rfl

/-- Settles O13: a legal range, and the two errors of a range. -/
theorem regBitsReturnsTheField : Obligations.RegBitsReturnsTheField := by
  intro s r hi lo hs
  refine ⟨fun hl hh => ?_, fun h => ?_, fun hlt hlo => ?_⟩
  · exact ⟨.field (fieldWidth hi lo) (fieldOf r hi lo), exec_regBits_of_legal hs r ⟨hl, hh⟩, rfl,
      toNat_fieldOf r hl hh⟩
  · exact exec_regBits_of_rangeError hs r (rangeError_position h)
  · exact exec_regBits_of_rangeError hs r (rangeError_empty hlo hlt)

/-- Settles O14: the answer does not depend on the old value. -/
theorem regWriteReplacesTheWord : Obligations.RegWriteReplacesTheWord :=
  fun _ r v hs => exec_regWrite hs r v

/-- Settles O15: a legal range with a value that fits, the two errors of a range, and a value that does not fit. -/
theorem regWriteBitsReplacesTheField : Obligations.RegWriteBitsReplacesTheField := by
  intro s r hi lo v hs
  refine ⟨fun hl hh hv => ?_, fun h => ?_, fun hlt hlo => ?_, fun hl hh hv => ?_⟩
  · exact ⟨withField r hi lo v, fieldMask hi lo, toNat_fieldMask hl hh, rfl,
      exec_regWriteBits_of_fits hs r ⟨hl, hh⟩ hv, fun _ hj => getLsbD_withField r v hl hh hj⟩
  · exact exec_regWriteBits_of_rangeError hs r v (rangeError_position h)
  · exact exec_regWriteBits_of_rangeError hs r v (rangeError_empty hlo hlt)
  · rw [exec_regWriteBits_of_legal hs r v ⟨hl, hh⟩, if_pos hv]
    rfl

/-- Settles O16: each law is a fact about the fields the operations answer with. -/
theorem registerLaws : Obligations.RegisterLaws := by
  intro s r v f hi lo i hs hl hh hi' hf
  have hr : LegalRange hi lo := ⟨hl, hh⟩
  refine ⟨withField r hi lo f, fieldOf r hi lo, ?_, ?_, ?_, ?_, fun j hj hout => ?_, ?_, ?_, ?_, ?_, ?_⟩
  · rw [exec_regWrite hs, valueOf_returns]
  · rw [exec_regRead hs, valueOf_returns]
  · rw [exec_regWriteBits_of_fits hs r hr hf, valueOf_returns]
  · rw [exec_regBits_of_legal hs _ hr, fieldOf_withField r hr hf]
    rfl
  · rw [exec_regBit_of_le hs _ hj, exec_regBit_of_le hs r hj, getLsbD_withField_outside r f hr hj hout]
  · rw [exec_regBits_of_legal hs r ⟨le_rfl, hi'⟩, exec_regBit_of_le hs r hi']
    exact congrArg some (toNat_fieldOf_one r hi')
  · rw [exec_regBits_of_legal hs r ⟨by decide, by decide⟩, exec_regRead hs, fieldOf_full]
    rfl
  · rw [exec_regBits_of_legal hs r hr]
    rfl
  · rw [exec_regWriteBits_of_fits hs r hr (toNat_fieldOf_lt r hr), withField_fieldOf r hr, valueOf_returns]
  · rw [exec_regAsSigned hs, exec_regRead hs]
    exact congrArg some (number_signedWord_emod r)

end Sys2Proof.Machine
end

section
/-! The Register File (41_register_file.md): a slot read after a write, what `get` and `set` do in a running state at
each index, and the laws of R123 between them. -/

namespace Sys2Proof.Machine

section Slots

variable (s : State)

@[simp] theorem setSlot_responses (i : Fin 32) (v : Word) : (s.setSlot i v).responses = s.responses := by
  rw [setSlot_eq]

/-- R123 (a), (b): the value set is the value read, but for slot 0. -/
theorem slot_setSlot_same (i : Fin 32) (v : Word) : (s.setSlot i v).slot i = if i.val = 0 then 0#32 else v := by
  cases i using Fin.cases with
  | zero => rfl
  | succ k => rw [setSlot_succ, slot_succ, Vector.getElem_set_self, if_neg (by simp)]

/-- R123 (c): a write to one slot leaves the others. -/
theorem slot_setSlot_ne {i j : Fin 32} (v : Word) (h : j ≠ i) : (s.setSlot i v).slot j = s.slot j := by
  cases j using Fin.cases with
  | zero => rfl
  | succ k => rw [slot_succ, slot_succ, getElem_xs_setSlot_ne s v h.symm]

/-- The answer to an operation is no part of a slot. -/
@[simp] theorem slot_done (i : Fin 32) : s.done.slot i = s.slot i := rfl

theorem opGet_of_fin (i : Fin 32) : opGet s i.val = s.returns (.word (s.slot i)) := dif_pos i.isLt

theorem opGet_of_ge {n : Nat} (hn : 32 ≤ n) : opGet s n = s.abort .registerIndexOutOfRange :=
  dif_neg (Nat.not_lt.mpr hn)

theorem opSet_of_fin (i : Fin 32) (v : Word) : opSet s i.val v = (s.setSlot i v).done := dif_pos i.isLt

theorem opSet_of_ge {n : Nat} (v : Word) (hn : 32 ≤ n) : opSet s n v = s.abort .registerIndexOutOfRange :=
  dif_neg (Nat.not_lt.mpr hn)

end Slots

section Running

variable {s : State} (hs : s.aborted = false)
include hs

/-- R120, R175: both forms of `get` run the one read of the register file. -/
theorem exec_get {op : Nat → Instr} (hop : op = Instr.rfGet ∨ op = Instr.cpuGetR) (n : Nat) :
    exec (op n) s = .next (opGet s n) := by
  rcases hop with rfl | rfl <;> exact congrArg Host.Outcome.next (whileRunning_running hs _)

/-- R121, R176: both forms of `set` run the one write of the register file. -/
theorem exec_set {op : Nat → Word → Instr} (hop : op = Instr.rfSet ∨ op = Instr.cpuSetR) (n : Nat) (v : Word) :
    exec (op n v) s = .next (opSet s n v) := by
  rcases hop with rfl | rfl <;> exact congrArg Host.Outcome.next (whileRunning_running hs _)

/-- R120: a legal index. -/
theorem exec_rfGet_of_fin (i : Fin 32) : exec (.rfGet i.val) s = .next (s.returns (.word (s.slot i))) := by
  rw [exec_get hs (.inl rfl), opGet_of_fin]

/-- R121: a legal index. -/
theorem exec_rfSet_of_fin (i : Fin 32) (v : Word) : exec (.rfSet i.val v) s = .next (s.setSlot i v).done := by
  rw [exec_set hs (.inl rfl), opSet_of_fin]

end Running

/-- Settles O17: slot 0 and the stored slots by the rules of `slot`, and an index without a slot. -/
theorem getReadsTheSlot : Obligations.GetReadsTheSlot := by
  intro s hs op hop
  refine ⟨?zero, fun k => ?stored, fun n hn => ?illegal⟩
  case zero =>
    rw [exec_get hs hop]
    exact congrArg Host.Outcome.next (opGet_of_fin s 0)
  case stored =>
    rw [exec_get hs hop, ← slot_succ]
    exact congrArg Host.Outcome.next (opGet_of_fin s k.succ)
  case illegal =>
    rw [exec_get hs hop, opGet_of_ge s hn]
    rfl

/-- Settles O18: slot 0 and the stored slots by the rules of `setSlot`, and an index without a slot. -/
theorem setWritesTheSlot : Obligations.SetWritesTheSlot := by
  intro s v hs op hop
  refine ⟨?zero, fun k => ?stored, fun n hn => ?illegal⟩
  case zero =>
    rw [exec_set hs hop]
    exact congrArg Host.Outcome.next (opSet_of_fin s 0 v)
  case stored =>
    have hset : opSet s (k.val + 1) v = (s.setSlot k.succ v).done := opSet_of_fin s k.succ v
    rw [exec_set hs hop, hset, setSlot_succ]
    rfl
  case illegal =>
    rw [exec_set hs hop, opSet_of_ge s v hn]
    rfl

/-- Settles O19: after the first `set` the block still runs, so each law is a fact about the slots of its state. -/
theorem registerFileLaws : Obligations.RegisterFileLaws := by
  intro s i j v w hs
  have ht : (s.setSlot i v).done.aborted = false := (setSlot_aborted s i v).trans hs
  refine ⟨_, _, exec_rfSet_of_fin hs i v, exec_rfSet_of_fin ht i w, ?same, fun hji => ?other, ?later,
    s.slot i, exec_rfGet_of_fin hs i⟩
  case same => rw [exec_rfGet_of_fin ht, valueOf_returns, slot_done, slot_setSlot_same]
  case other =>
    rw [exec_rfGet_of_fin ht, exec_rfGet_of_fin hs, valueOf_returns, valueOf_returns, slot_done,
      slot_setSlot_ne s v hji]
  case later =>
    rw [exec_rfSet_of_fin hs, setSlot_done, setSlot_setSlot, ← setSlot_responses s i w]
    rfl

end Sys2Proof.Machine
end

section
/-! The CSR Bank (42_csr_bank.md): the gate of its operations by outcome, what each operation does in a running state,
the read-only bits through every step (R149), and the laws of R153 for chained operations. -/

namespace Sys2Proof.Machine

/-- Settles O32: a reset bank has its read-only bits at reset, and they speak of the configuration and the bank alone,
so that what is left of a step is the effect of an operation. -/
theorem readOnlyBitsKeepTheirResetValue : Obligations.ReadOnlyBitsKeepTheirResetValue :=
  ⟨fun c => readOnlyBitsAtReset_of_resetBank (afterReset_csr c),
    fun _ _ hs h => step_keeps (fun _ _ hu => hu.congr rfl rfl) (fun _ _ hu => hu.congr rfl rfl)
      (fun _ _ _ hu he => he.readOnlyBits hu) hs h⟩

section Gate

variable {s : State} {a : CsrAddr} {p : Nat} {m : PrivMode} {e : CsrRecord} {access : CsrRecord → State}

theorem withMode_of_none {k : PrivMode → State} (hm : modeOfCode s.config p = none) :
    s.withMode p k = s.abort .badPrivilegeOperand := by
  simp only [State.withMode, hm]

theorem withMode_of_some {k : PrivMode → State} (hm : modeOfCode s.config p = some m) : s.withMode p k = k m := by
  simp only [State.withMode, hm]

theorem withCsr_of_none (he : s.config.csr? a = none) : s.withCsr a access = s.answer (.undefinedCsr a) := by
  simp only [State.withCsr, he]

theorem withCsr_of_some (he : s.config.csr? a = some e) : s.withCsr a access = access e := by
  simp only [State.withCsr, he]

-- The four outcomes of the gate, in the order of its checks (R148).

theorem gated_of_no_mode (hm : modeOfCode s.config p = none) : s.gated a p access = s.abort .badPrivilegeOperand :=
  withMode_of_none hm

theorem gated_of_undefined (hm : modeOfCode s.config p = some m) (he : s.config.csr? a = none) :
    s.gated a p access = s.answer (.undefinedCsr a) := by
  rw [State.gated, withMode_of_some hm, withCsr_of_none he]

theorem gated_of_insufficient (hm : modeOfCode s.config p = some m) (he : s.config.csr? a = some e)
    (hr : rank m < rank e.minPrivilege) : s.gated a p access = s.answer (.privilegeViolation a m) := by
  rw [State.gated, withMode_of_some hm, withCsr_of_some he, if_pos hr]

theorem gated_of_sufficient (hm : modeOfCode s.config p = some m) (he : s.config.csr? a = some e)
    (hr : rank e.minPrivilege ≤ rank m) : s.gated a p access = access e := by
  rw [State.gated, withMode_of_some hm, withCsr_of_some he, if_neg (Nat.not_lt.mpr hr)]

end Gate

@[simp] theorem answerOf_answer (s : State) (r : Response) : answerOf (.next (s.answer r)) = some r := rfl

@[simp] theorem valueOf_answer (s : State) (r : Response) : valueOf (.next (s.answer r)) = r.value? := rfl

/-- R140: what an inspection of `a` answers, by `csr[a]`. -/
def inspectionAnswer (s : State) (a : CsrAddr) : Response :=
  (s.csr? a).elim (.undefinedCsr a) fun v => .ok (some (.word v))

theorem inspectionAnswer_of_some {s : State} {a : CsrAddr} {v : Word} (hv : s.csr? a = some v) :
    inspectionAnswer s a = .ok (some (.word v)) := by
  rw [inspectionAnswer, hv, Option.elim_some]

theorem inspectionAnswer_of_undefined {s : State} {a : CsrAddr} (he : s.config.csr? a = none) :
    inspectionAnswer s a = .undefinedCsr a := by
  rw [inspectionAnswer, State.csr?, he, Option.map_none, Option.elim_none]

theorem inspectionAnswer_congr {s t : State} {a : CsrAddr} (h : t.csr? a = s.csr? a) :
    inspectionAnswer t a = inspectionAnswer s a := by
  rw [inspectionAnswer, h, inspectionAnswer]

theorem opExplicitRead_eq (s : State) (a : CsrAddr) : opExplicitRead s a = s.answer (inspectionAnswer s a) := by
  cases he : s.config.csr? a with
  | none => rw [opExplicitRead, withCsr_of_none he, inspectionAnswer_of_undefined he]
  | some e =>
    rw [opExplicitRead, withCsr_of_some he, inspectionAnswer_of_some (csr?_eq_some s he)]
    rfl

/-- R143: every defined CSR holds its reset value. -/
theorem csr?_opCsrReset (s : State) {a : CsrAddr} {e : CsrRecord} (he : s.config.csr? a = some e) :
    (opCsrReset s).csr? a = some e.resetValue := by
  rw [csr?_resetBank (s := s) (t := opCsrReset s) rfl rfl, he, Option.map_some]

section Running

variable {s : State} (hs : s.aborted = false)
include hs

/-- R140, R177: both forms of the inspection. -/
theorem exec_explicitRead {op : CsrAddr → Instr} (hop : op = Instr.csrExplicitRead ∨ op = Instr.cpuCsrExplicitRead)
    (a : CsrAddr) : exec (op a) s = .next (s.answer (inspectionAnswer s a)) := by
  rw [← opExplicitRead_eq]
  rcases hop with rfl | rfl <;> exact congrArg Host.Outcome.next (whileRunning_running hs _)

/-- R141, R178: both forms of the gated read. -/
theorem exec_gatedRead {op : CsrAddr → Nat → Instr} (hop : op = Instr.csrRead ∨ op = Instr.cpuCsrRead)
    (a : CsrAddr) (p : Nat) : exec (op a p) s = .next (opCsrRead s a p) := by
  rcases hop with rfl | rfl <;> exact congrArg Host.Outcome.next (whileRunning_running hs _)

/-- R142, R179: both forms of the gated write. -/
theorem exec_gatedWrite {op : CsrAddr → Nat → Word → Instr} (hop : op = Instr.csrWrite ∨ op = Instr.cpuCsrWrite)
    (a : CsrAddr) (p : Nat) (v : Word) : exec (op a p v) s = .next (opCsrWrite s a p v) := by
  rcases hop with rfl | rfl <;> exact congrArg Host.Outcome.next (whileRunning_running hs _)

/-- R143, R180: both forms of the reset of the bank. -/
theorem exec_bankReset {op : Instr} (hop : op = .csrReset ∨ op = .cpuCsrReset) :
    exec op s = .next (opCsrReset s) := by
  rcases hop with rfl | rfl <;> exact congrArg Host.Outcome.next (whileRunning_running hs _)

end Running

/-- Settles O22: the two answers of an inspection. -/
theorem explicitReadReturnsTheCsr : Obligations.ExplicitReadReturnsTheCsr := by
  intro s a hs op hop
  refine ⟨fun he => ?undefined, fun e he => ⟨s.cell a e, csr?_eq_some s he, ?defined⟩⟩
  case undefined =>
    rw [exec_explicitRead hs hop, inspectionAnswer_of_undefined he]
    rfl
  case defined =>
    rw [exec_explicitRead hs hop, inspectionAnswer_of_some (csr?_eq_some s he)]
    rfl

/-- Settles O23: the four outcomes of the gate; the access is the read effect, which writes the one cell. -/
theorem gatedReadReturnsTheCsr : Obligations.GatedReadReturnsTheCsr := by
  intro s a p hs op hop
  have hexec := exec_gatedRead hs hop a p
  refine ⟨fun hm => hexec.trans (congrArg _ (gated_of_no_mode hm)), fun m hm =>
    ⟨fun he => hexec.trans (congrArg _ (gated_of_undefined hm he)),
      fun e he hr => hexec.trans (congrArg _ (gated_of_insufficient hm he hr)), fun e he hr => ?_⟩⟩
  exact ⟨s.cell a e, (s.applyReadEffect a e).returns (.word (s.cell a e)), csr?_eq_some s he,
    hexec.trans (congrArg _ (gated_of_sufficient hm he hr)),
    congrArg (·.returns (.word (s.cell a e))) (applyReadEffect_eq s a e),
    csr?_applyReadEffect_same s he, fun b hb => csr?_applyReadEffect_ne s e hb,
    fun hid => by rw [returns_csr, applyReadEffect_identity s a e hid]⟩

/-- Settles O24: the four outcomes of the gate; the access sets the one cell to the merge under the mask. -/
theorem gatedWriteMergesUnderTheMask : Obligations.GatedWriteMergesUnderTheMask := by
  intro s a p v hs op hop
  have hexec := exec_gatedWrite hs hop a p v
  refine ⟨fun hm => hexec.trans (congrArg _ (gated_of_no_mode hm)), fun m hm =>
    ⟨fun he => hexec.trans (congrArg _ (gated_of_undefined hm he)),
      fun e he hr => hexec.trans (congrArg _ (gated_of_insufficient hm he hr)), fun e he hr => ?_⟩⟩
  exact ⟨s.cell a e, (s.setCsr a (maskedWrite (s.cell a e) e.writeMask v)).done, csr?_eq_some s he,
    hexec.trans (congrArg _ (gated_of_sufficient hm he hr)), rfl,
    csr?_setCsr_same s _ he, fun b hb => csr?_setCsr_ne s _ hb⟩

/-- Settles O25: the bank is the one of a reset, so the named CSRs have the bits clear that R32 to R36 ask for. -/
theorem csrResetRestoresTheBank : Obligations.CsrResetRestoresTheBank := by
  intro s hs op hop
  have hbank : (opCsrReset s).csr = resetCsrs (opCsrReset s).config := rfl
  exact ⟨opCsrReset s, exec_bankReset hs hop, rfl, fun a e he => csr?_opCsrReset s he, fun hc =>
    ⟨mstatus_of_resetBank hbank hc, mstatush_of_resetBank hbank hc, csr?_of_namesCsr_allOnes hbank hc.namesMisa,
      csr?_of_namesCsr_allOnes hbank hc.namesMcause, fun a hlo hhi => pmpcfg_of_resetBank hbank hc hlo hhi⟩⟩

/-- Settles O28: the statements about the single operations, chained through the states they leave running. -/
theorem csrBankLaws : Obligations.CsrBankLaws := by
  intro s a v hs
  refine ⟨fun e p m he hm hr => ?chained, fun e q n he hn hr => ?violation, fun he => ?undefined⟩
  case chained =>
    obtain ⟨-, houtcomes⟩ := gatedWriteMergesUnderTheMask s a p v hs .csrWrite (.inl rfl)
    obtain ⟨-, -, hwrite⟩ := houtcomes m hm
    obtain ⟨old, t, hold, hexec, hframe, hsame, hother⟩ := hwrite e he hr
    have ht : t.aborted = false := by rw [hframe]; exact hs
    have hc : t.config = s.config := by rw [hframe]
    have hu : (opCsrReset t).aborted = false := ht
    refine ⟨old, t, opCsrReset t, ?before, hexec, ?merged, fun b hb => ?other, exec_bankReset ht (.inl rfl),
      fun b f hf => ?reset⟩
    case before =>
      rw [exec_explicitRead hs (.inl rfl), inspectionAnswer_of_some hold]
      rfl
    case merged => rw [exec_explicitRead ht (.inl rfl), inspectionAnswer_of_some hsame, valueOf_answer, Response.value?]
    case other =>
      rw [exec_explicitRead ht (.inl rfl), exec_explicitRead hs (.inl rfl), answerOf_answer, answerOf_answer,
        inspectionAnswer_congr (hother b hb)]
    case reset =>
      rw [exec_explicitRead hu (.inl rfl), inspectionAnswer_of_some (csr?_opCsrReset t (hc ▸ hf)), valueOf_answer,
        Response.value?]
  case violation =>
    exact ⟨(exec_gatedRead hs (.inl rfl) a q).trans (congrArg _ (gated_of_insufficient hn he hr)),
      (exec_gatedWrite hs (.inl rfl) a q v).trans (congrArg _ (gated_of_insufficient hn he hr))⟩
  case undefined =>
    refine ⟨?_, fun q n hn =>
      ⟨(exec_gatedRead hs (.inl rfl) a q).trans (congrArg _ (gated_of_undefined hn he)),
        (exec_gatedWrite hs (.inl rfl) a q v).trans (congrArg _ (gated_of_undefined hn he))⟩⟩
    rw [exec_explicitRead hs (.inl rfl), inspectionAnswer_of_undefined he]
    rfl

end Sys2Proof.Machine
end

section
/-! The CPU State (43_cpu_state.md): what its operations do in a running state, runs of one operation after another,
and the facades. -/

namespace Sys2Proof.Machine

section Running

variable {s : State} (hs : s.aborted = false)
include hs

/-- R171. -/
theorem exec_cpuGetPc : exec .cpuGetPc s = .next (s.returns (.word s.pc)) :=
  congrArg Host.Outcome.next (whileRunning_running hs _)

/-- R172. -/
theorem exec_cpuSetPc (v : Word) : exec (.cpuSetPc v) s = .next (State.done { s with pc := v }) :=
  congrArg Host.Outcome.next (whileRunning_running hs _)

/-- R173. -/
theorem exec_cpuGetInstCount : exec .cpuGetInstCount s = .next (s.returns (.count s.icount)) :=
  congrArg Host.Outcome.next (whileRunning_running hs _)

/-- R174. -/
theorem exec_cpuIncrementInstCount :
    exec .cpuIncrementInstCount s = .next (State.done { s with icount := s.icount + 1#64 }) :=
  congrArg Host.Outcome.next (whileRunning_running hs _)

/-- R146, R181: both forms of the read of the mode. -/
theorem exec_getPriv {op : Instr} (hop : op = .csrGetPriv ∨ op = .cpuGetPriv) :
    exec op s = .next (s.returns (.mode s.priv)) := by
  rcases hop with rfl | rfl <;> exact congrArg Host.Outcome.next (whileRunning_running hs _)

/-- R147, R182: both forms of the switch of the mode. -/
theorem exec_setPriv {op : Nat → Instr} (hop : op = Instr.csrSetPriv ∨ op = Instr.cpuSetPriv) (code : Nat) :
    exec (op code) s = .next (opSetPriv s code) := by
  rcases hop with rfl | rfl <;> exact congrArg Host.Outcome.next (whileRunning_running hs _)

end Running

theorem opSetPriv_of_some {s : State} {code : Nat} {m : PrivMode} (hm : modeOfCode s.config code = some m) :
    opSetPriv s code = State.done { s with priv := m } :=
  withMode_of_some hm

theorem opSetPriv_of_none {s : State} {code : Nat} (hm : modeOfCode s.config code = none) :
    opSetPriv s code = s.abort .badPrivilegeOperand :=
  withMode_of_none hm

theorem execAll_cons_of_next {s t : State} {i : Instr} (h : exec i s = .next t) (is : List Instr) :
    execAll (i :: is) s = execAll is t := by
  rw [execAll, h]

/-- The state `n` increments lead to. -/
def State.incremented (s : State) (n : Nat) : State :=
  { s with icount := s.icount + BitVec.ofNat 64 n, responses := List.replicate n (.ok none) ++ s.responses }

theorem incremented_zero (s : State) : s.incremented 0 = s := by
  simp only [State.incremented, BitVec.add_zero, List.replicate_zero, List.nil_append]

theorem incremented_succ (s : State) (n : Nat) :
    (State.done { s with icount := s.icount + 1#64 }).incremented n = s.incremented (n + 1) := by
  have hcount : s.icount + 1#64 + BitVec.ofNat 64 n = s.icount + BitVec.ofNat 64 (n + 1) := by
    rw [BitVec.add_assoc, ← BitVec.ofNat_add, Nat.add_comm 1 n]
  have hanswers : List.replicate n (Response.ok none) ++ .ok none :: s.responses =
      List.replicate (n + 1) (.ok none) ++ s.responses := by
    rw [List.replicate_succ', List.append_assoc, List.singleton_append]
  simp only [State.incremented, State.done, State.answer, hcount, hanswers]

theorem toNat_icount_incremented (s : State) (n : Nat) :
    (s.incremented n).icount.toNat = (s.icount.toNat + n) % 2 ^ 64 := by
  simp only [State.incremented, BitVec.toNat_add, BitVec.toNat_ofNat, Nat.add_mod_mod]

/-- An increment leaves the block running, so that the next one counts on from its state. -/
theorem execAll_increments (n : Nat) {s : State} (hs : s.aborted = false) :
    execAll (List.replicate n .cpuIncrementInstCount) s = .next (s.incremented n) := by
  induction n generalizing s with
  | zero => rw [List.replicate_zero, execAll, incremented_zero]
  | succ n ih =>
    have hrunning : (State.done { s with icount := s.icount + 1#64 }).aborted = false := hs
    rw [List.replicate_succ, execAll_cons_of_next (exec_cpuIncrementInstCount hs), ih hrunning, incremented_succ]

/-- Settles O38: the state the increments lead to, its counter read as an integer. -/
theorem incrementsAddUp : Obligations.IncrementsAddUp :=
  fun n s hs => ⟨s.incremented n, execAll_increments n hs, toNat_icount_incremented s n, rfl⟩

/-- Settles O26: the rule for both forms. -/
theorem getPrivReturnsTheMode : Obligations.GetPrivReturnsTheMode :=
  fun _ hs _ hop => exec_getPriv hs hop

/-- Settles O27: the operand names a mode or none. -/
theorem setPrivSwitchesTheMode : Obligations.SetPrivSwitchesTheMode := by
  intro s code hs op hop
  have hexec := exec_setPriv hs hop code
  exact ⟨fun m hm => hexec.trans (congrArg _ (opSetPriv_of_some hm)),
    fun hm => hexec.trans (congrArg _ (opSetPriv_of_none hm))⟩

/-- Settles O33: `CPU.reset` does not ask whether the block has aborted, and its bank is the one of a reset. -/
theorem cpuResetResetsTheBlock : Obligations.CpuResetResetsTheBlock :=
  fun s => ⟨s.resetBlock.done, rfl, rfl, csr?_resetBank (s := s) rfl rfl⟩

/-- Settles O34: the rules for both operations; `set_pc` leaves the block running, so `get_pc` answers. -/
theorem programCounterRoundTrips : Obligations.ProgramCounterRoundTrips := by
  intro s v hs
  refine ⟨exec_cpuGetPc hs, exec_cpuSetPc hs v, fun t ht => ?_⟩
  obtain rfl : State.done { s with pc := v } = t := Host.Outcome.next.inj ((exec_cpuSetPc hs v).symm.trans ht)
  have hrunning : (State.done { s with pc := v }).aborted = false := hs
  rw [exec_cpuGetPc hrunning, valueOf_returns, done_pc]

/-- Settles O36: the rules for both operations, the increment read as an integer. -/
theorem counterCountsByOne : Obligations.CounterCountsByOne :=
  fun s hs => ⟨exec_cpuGetInstCount hs, s.icount + 1#64, toNat_count_succ s.icount, exec_cpuIncrementInstCount hs⟩

/-- Settles O39: a facade's arm and the component's run the same shared operation, each unless the block has
aborted. -/
theorem facadeIsTheComponent : Obligations.FacadeIsTheComponent :=
  fun _ => ⟨fun _ => rfl, fun _ _ => rfl, fun _ => rfl, fun _ _ => rfl, fun _ _ _ => rfl, rfl, rfl, fun _ => rfl⟩

end Sys2Proof.Machine
end

section
/-! Conditions and aborts (60_exceptions.md): the three kinds of answer an operation ends with and what each says of
the state, the effects that end in each condition, the operands of an operation that does not abort, and the op codes
that select no operation. -/

namespace Sys2Proof.Machine

@[simp] theorem applyReadEffect_responses (s : State) (a : CsrAddr) (e : CsrRecord) :
    (s.applyReadEffect a e).responses = s.responses := by rw [applyReadEffect_eq]

section Answers

variable {s t : State} {i : Instr}

/-- An operation aborts, ends in a condition that changes nothing, or answers `Ok`. -/
theorem Effect.answer_cases (h : Effect s i t) :
    (∃ e, t = s.abort e) ∨ (s.aborted = false ∧ ∃ r, r.isCondition = true ∧ t = s.answer r) ∨
    ∃ v, t.responses = .ok v :: s.responses := by
  cases h with
  | abort e => exact .inl ⟨e, rfl⟩
  | undefined a hs => exact .inr (.inl ⟨hs, .undefinedCsr a, rfl, rfl⟩)
  | violation a p m e hs => exact .inr (.inl ⟨hs, .privilegeViolation a m, rfl, rfl⟩)
  | slot n v => exact .inr (.inr ⟨none, by rw [done_responses, setSlot_responses]⟩)
  | readCsr a p e => exact .inr (.inr ⟨_, by rw [returns_responses, applyReadEffect_responses]⟩)
  | _ => exact .inr (.inr ⟨_, rfl⟩)

/-- R201: the one effect that answers `PrivilegeViolation`. -/
theorem Effect.of_privilegeViolation {a : CsrAddr} {m : PrivMode} (h : Effect s i t)
    (hr : t.responses = .privilegeViolation a m :: s.responses) :
    ∃ p e, modeOfCode s.config p = some m ∧ s.config.csr? a = some e ∧ rank m < rank e.minPrivilege ∧
      (i = .csrRead a p ∨ i = .cpuCsrRead a p ∨ ∃ v, i = .csrWrite a p v ∨ i = .cpuCsrWrite a p v) := by
  cases h with
  | violation b p n e _ _ hm he hrank hi =>
    cases hr
    exact ⟨p, e, hm, he, hrank, hi⟩
  | _ => cases hr

/-- R202: the one effect that answers `UndefinedCsr`. -/
theorem Effect.of_undefinedCsr {a : CsrAddr} (h : Effect s i t) (hr : t.responses = .undefinedCsr a :: s.responses) :
    s.config.csr? a = none ∧
      (i = .csrExplicitRead a ∨ i = .cpuCsrExplicitRead a ∨ (∃ p, i = .csrRead a p ∨ i = .cpuCsrRead a p) ∨
        ∃ p v, i = .csrWrite a p v ∨ i = .cpuCsrWrite a p v) := by
  cases h with
  | undefined b _ _ he hi =>
    cases hr
    exact ⟨he, hi⟩
  | _ => cases hr

/-- R205: an operation leaves the block aborted with a precondition violated, or running with none; `CPU.reset` has
none. -/
theorem Effect.aborted_cases (h : Effect s i t) :
    (t.aborted = true ∧ i ≠ .cpuReset ∧ (s.aborted = true ∨ ¬LegalOperands s.config i)) ∨
    (t.aborted = false ∧ (i = .cpuReset ∨ (s.aborted = false ∧ LegalOperands s.config i))) := by
  cases h with
  | abort e hi hcause => exact .inl ⟨rfl, hi, hcause⟩
  | reset => exact .inr ⟨rfl, .inl rfl⟩
  | undefined _ hs hl | violation _ _ _ _ hs hl | value _ hs hl => exact .inr ⟨hs, .inr ⟨hs, hl⟩⟩
  | pc _ hs | count hs => exact .inr ⟨hs, .inr ⟨hs, trivial⟩⟩
  | slot n v hs hi =>
    have hn : n.val ≤ 31 := Nat.le_of_lt_succ n.isLt
    exact .inr ⟨(setSlot_aborted s n v).trans hs, .inr ⟨hs, by rcases hi with rfl | rfl <;> exact hn⟩⟩
  | readCsr a p e hs hp _ hi =>
    exact .inr ⟨(applyReadEffect_aborted s a e).trans hs, .inr ⟨hs, by rcases hi with rfl | rfl <;> exact hp⟩⟩
  | writeCsr a p v e hs hp _ hi => exact .inr ⟨hs, .inr ⟨hs, by rcases hi with rfl | rfl <;> exact hp⟩⟩
  | bankReset hs hi => exact .inr ⟨hs, .inr ⟨hs, by rcases hi with rfl | rfl <;> exact trivial⟩⟩
  | priv code m hs hm hi =>
    have hp : LegalPrivilege s.config code := modeOfCode_isSome.mp ⟨m, hm⟩
    exact .inr ⟨hs, .inr ⟨hs, by rcases hi with rfl | rfl <;> exact hp⟩⟩

/-- R205: the two sides exclude each other, so the violation is also enough for the abort. -/
theorem Effect.aborted_iff (h : Effect s i t) :
    t.aborted = true ↔ i ≠ .cpuReset ∧ (s.aborted = true ∨ ¬LegalOperands s.config i) := by
  rcases h.aborted_cases with ⟨ht, hcause⟩ | ⟨ht, hi | ⟨hs, hl⟩⟩
  · exact iff_of_true ht hcause
  · simp [ht, hi]
  · simp [ht, hs, hl]

end Answers

/-- R78: the op codes of the five ranges are those of no row of the operation map. -/
theorem operandReader_of_unassigned {op : Byte} (h : UnassignedOpcode op) : operandReader op.toNat = none := by
  unfold UnassignedOpcode at h
  cases hc : operandReader op.toNat with
  | none => rfl
  | some read =>
    unfold operandReader at hc
    split at hc <;> cases hc <;> omega

theorem decode_of_unassigned {op : Byte} (h : UnassignedOpcode op) (operands : List Byte) :
    decode (op :: operands) = .error (.unassignedOpcode op) := by
  simp only [decode, operandReader_of_unassigned h]

/-- R78: a step that takes a frame with an unassigned op code answers it as one, whatever bytes follow the code. -/
theorem step_of_unassigned {s : State} {op : Byte} {operands : List Byte} {rest : List (List Byte)}
    (hq : s.requests = (op :: operands) :: rest) (h : UnassignedOpcode op) :
    step s = .next (answerUnassigned { s with requests := rest }) := by
  rw [step_of_cons hq, decode_of_unassigned h]
  rfl

/-- Settles O43: each condition is the answer of one effect. -/
theorem conditionsComeFromCsrAccesses : Obligations.ConditionsComeFromCsrAccesses :=
  fun _ _ _ _ h => ⟨fun _ hr => (effect_of_exec h).of_privilegeViolation hr, (effect_of_exec h).of_undefinedCsr⟩

/-- Settles O44: of the three kinds of answer only the second is a condition. -/
theorem conditionChangesNothing : Obligations.ConditionChangesNothing := by
  intro s t i r h hr hcond
  rcases (effect_of_exec h).answer_cases with ⟨e, rfl⟩ | ⟨hs, q, -, rfl⟩ | ⟨v, hv⟩
  · cases hr
    cases hcond
  · cases hr
    exact ⟨rfl, hs⟩
  · cases hv.symm.trans hr
    cases hcond

/-- Settles O45: of the three kinds of answer only the first is an abort. -/
theorem abortChangesOnlyItsFlag : Obligations.AbortChangesOnlyItsFlag := by
  intro s t i e h hr
  rcases (effect_of_exec h).answer_cases with ⟨e', rfl⟩ | ⟨-, q, hq, rfl⟩ | ⟨v, hv⟩
  · cases hr
    rfl
  · cases hr
    cases hq
  · cases hv.symm.trans hr

/-- Settles O46: of the two effects an aborted block has left, one is that of `CPU.reset`, and the other is an abort,
which sets a flag that is set. -/
theorem abortedBlockOnlyAborts : Obligations.AbortedBlockOnlyAborts := by
  intro s i hs hi
  obtain ⟨t, hexec, heffect⟩ := exec_effect s i
  rcases heffect.of_aborted hs with ⟨e, rfl⟩ | ⟨hreset, -⟩
  · exact ⟨e, hexec.trans (congrArg _ (abort_of_aborted hs e))⟩
  · exact absurd hreset hi

/-- Settles O47: the effects that leave the block aborted, and the step with an unassigned op code. -/
theorem abortCausesAreTheList : Obligations.AbortCausesAreTheList := by
  refine ⟨fun s t i h => (effect_of_exec h).aborted_iff, fun s op operands rest hq hop => ?_⟩
  obtain ⟨e, he⟩ := answerUnassigned_eq_abort { s with requests := rest }
  exact ⟨_, step_of_unassigned hq hop, by rw [he, abort_aborted]⟩

end Sys2Proof.Machine
end

section
/-! Every operation ends (70_reset_and_hazards.md): one answer, and the driver's queue left as it was. -/

namespace Sys2Proof.Machine

@[simp] theorem setSlot_requests (s : State) (n : Fin 32) (v : Word) : (s.setSlot n v).requests = s.requests := by
  rw [setSlot_eq]

@[simp] theorem applyReadEffect_requests (s : State) (a : CsrAddr) (e : CsrRecord) :
    (s.applyReadEffect a e).requests = s.requests := by rw [applyReadEffect_eq]

section Ends

variable {s t : State} {i : Instr}

/-- Each of the three kinds of answer is one response on top of the earlier ones. -/
theorem Effect.answers_once (h : Effect s i t) : ∃ r, t.responses = r :: s.responses := by
  rcases h.answer_cases with ⟨e, rfl⟩ | ⟨-, r, -, rfl⟩ | ⟨v, hv⟩
  · exact ⟨.abort e, abort_responses s e⟩
  · exact ⟨r, answer_responses s r⟩
  · exact ⟨.ok v, hv⟩

/-- No operation takes from the driver's queue or adds to it. -/
theorem Effect.requests_eq (h : Effect s i t) : t.requests = s.requests := by
  cases h with
  | slot n v => rw [done_requests, setSlot_requests]
  | readCsr a p e => rw [returns_requests, applyReadEffect_requests]
  | _ => rfl

end Ends

/-- Settles O42: every operation has an effect, and every effect answers once and keeps the queue and the
configuration. -/
theorem everyOperationAnswersOnce : Obligations.EveryOperationAnswersOnce := by
  intro s i
  obtain ⟨t, hexec, heffect⟩ := exec_effect s i
  obtain ⟨r, hr⟩ := heffect.answers_once
  exact ⟨t, r, hexec, hr, heffect.requests_eq, heffect.config_eq⟩

end Sys2Proof.Machine
end

section
/-! The answers themselves (30_encoding.md): the one to an op code of no row of the operation map (R78), and the status
codes (R76). -/

namespace Sys2Proof.Machine

/-- R78: in a running block the first failed precondition is that of the op code, so it is the reason of the abort. -/
theorem answerUnassigned_of_running {s : State} (hs : s.aborted = false) :
    answerUnassigned s = s.abort .unassignedOpcode :=
  whileRunning_running hs _

/-- Settles O3: the step of an unassigned op code, whose answer in a running block is the abort with that reason. -/
theorem unassignedOpcodeAborts : Obligations.UnassignedOpcodeAborts := by
  intro s op operands rest hq hs hop
  have hun : UnassignedOpcode op := by
    unfold UnassignedOpcode
    omega
  calc step s = .next (answerUnassigned { s with requests := rest }) := step_of_unassigned hq hun
    _ = .next (State.abort { s with requests := rest } .unassignedOpcode) :=
      congrArg _ (answerUnassigned_of_running hs)

/-- Settles O9: each code, and the value or its absence, is an equation of the definition by kind of response. -/
theorem responseStatusCodes : Obligations.ResponseStatusCodes :=
  fun _ _ _ _ => ⟨rfl, rfl, rfl, rfl, rfl, rfl, rfl, rfl⟩

end Sys2Proof.Machine
end
